-- ==== Sys2Proof/Word.lean ====
section
/-! DEFINITION. The command word and the binary64 datum: the two kinds of word the spec's core
handles. The arithmetic of binary64 stands in Machine/Float.lean. -/

namespace Sys2Proof

/-- One command word, `w[23:0]`, presented whole (30_encoding.md R70). -/
abbrev CommandWord := BitVec 24

/-- A binary64 value (00_scope.md R10, R72): a floating-point datum, not an encoding. A finite datum
holds the sign, the biased exponent 0..2046 and the 52 trailing significand bits; every finite
binary64 number, zeros and subnormals among them, is exactly one such triple. The spec gives a NaN
no bits, so there is one NaN (DESIGN CHOICE, log 8: safe). -/
inductive F64 where
  | nan
  | inf (neg : Bool)
  | finite (neg : Bool) (expo : Fin 2047) (frac : BitVec 52)
deriving DecidableEq, Repr, Inhabited

end Sys2Proof
end

