-- ==== Sys2Proof/Syntax.lean ====
section
/-! DEFINITION. The commands of 30_encoding.md R73, one constructor per row of
spec/opcode_table.json, the pseudo-instructions of R79, and the decoder's reasons to reject. -/

namespace Sys2Proof

/-- A command with its operands (R73, R74): `v` is the voice field `idx`, `imm16` and `ch` the whole
`data` field, `imm8` its low byte. -/
inductive Instr where
  /-- R101: set voice rate -/
  | wrate (v : BitVec 3) (imm16 : BitVec 16)
  /-- R102: set voice waveform -/
  | wwave (v : BitVec 3) (imm8 : BitVec 8)
  /-- R103: set voice volume and reset flag -/
  | wvol (v : BitVec 3) (imm8 : BitVec 8)
  /-- R104: set noise period -/
  | wnper (imm8 : BitVec 8)
  /-- R105: set noise volume and reset flag -/
  | wnvol (imm8 : BitVec 8)
  /-- R106: set noise waveform -/
  | wnwave (imm8 : BitVec 8)
  /-- R107: reset the synthesis state -/
  | reset
  /-- R191: one tick, raw frame -/
  | frame
  /-- R192: one tick, raw combined mono sample -/
  | sample
  /-- R213: one tick, mono-filtered sample -/
  | mono
  /-- R214: one tick, stereo-filtered pair -/
  | stereo
  /-- R215: one tick, headphone pair -/
  | hphone
  /-- R216: one tick into a sink of `ch` channels -/
  | sink (ch : BitVec 16)
deriving DecidableEq, Repr

/-- The pseudo-instructions of R79: expansions, not opcodes. -/
inductive Pseudo where
  | fillMono (n : Nat)
  | fillStereo (n : Nat)
  | fillHp (n : Nat)
  | fill (ch : BitVec 16) (n : Nat)
  | ticks (n : Nat)
deriving DecidableEq, Repr

/-- Why the decoder refuses a word (R75, R76), by name. The core reports each of them as the one
reason IllegalCommand (60_exceptions.md R241; DEDUCED, log 13: safe). -/
inductive Reject where
  /-- opcode 0x0, 0xE or 0xF -/
  | illegalOpcode
  /-- bit 19 (`z`) is 1 -/
  | reservedBit
  /-- `idx` = 7 in a voice write -/
  | voiceSeven
  /-- non-zero `idx` in a command that has no voice operand -/
  | indexNotZero
  /-- non-zero `data` in a command that has no operand -/
  | dataNotZero
deriving DecidableEq, Repr

end Sys2Proof
end

