-- ==== Sys2Proof/WellFormed.lean ====
section
/-! DEFINITION. Which terms of `Instr` are commands the spec allows. The widths of the operands are
in their types; the one check left is the voice index of 00_scope.md R7. -/

namespace Sys2Proof

/-- "voice v (0..6)" (R74): the value 7 is illegal (30_encoding.md R76). -/
def voiceInRange (v : BitVec 3) : Bool := v.toNat < 7

/-- A command the encoding admits (R74, R76). A channel count other than 1 or 2 is legal to decode
(R76): SINK faults when it executes, so it is well formed here. -/
def Instr.wellFormed : Instr → Bool
  | .wrate v _ => voiceInRange v
  | .wwave v _ => voiceInRange v
  | .wvol v _ => voiceInRange v
  | .wnper _ => true
  | .wnvol _ => true
  | .wnwave _ => true
  | .reset => true
  | .frame => true
  | .sample => true
  | .mono => true
  | .stereo => true
  | .hphone => true
  | .sink _ => true

end Sys2Proof
end

