-- ==== Sys2Proof/Decode.lean ====
section
/-! DEFINITION. The decoder of 30_encoding.md R71 to R77, the encoder of R78, the expansions of R79,
and the two entry points that number a word's bits as spec/opcode_table.json does. -/

namespace Sys2Proof

/-! ### Fields of the command word (R71) -/

/-- `op`, bits 23:20. -/
def opField (w : CommandWord) : BitVec 4 := w.extractLsb' 20 4

/-- `z`, bit 19. -/
def zField (w : CommandWord) : Bool := w.getLsbD 19

/-- `idx`, bits 18:16. -/
def idxField (w : CommandWord) : BitVec 3 := w.extractLsb' 16 3

/-- `data`, bits 15:0. -/
def dataField (w : CommandWord) : BitVec 16 := w.extractLsb' 0 16

/-- `imm8 = data[7:0]`; `data[15:8]` is ignored (R74). -/
def imm8Of (data : BitVec 16) : BitVec 8 := data.extractLsb' 0 8

/-! ### Decoding (R77) -/

/-- A voice write: the index 7 is refused (R76). -/
def decodeVoice (idx : BitVec 3) (i : Instr) : Except Reject Instr :=
  if idx = 7 then .error .voiceSeven else .ok i

/-- A command without a voice operand: `idx` must be 0 (R75). -/
def decodeNoIndex (idx : BitVec 3) (i : Instr) : Except Reject Instr :=
  if idx ≠ 0 then .error .indexNotZero else .ok i

/-- A command without operands: `idx` and `data` must be 0 (R75). -/
def decodePlain (idx : BitVec 3) (data : BitVec 16) (i : Instr) : Except Reject Instr :=
  if idx ≠ 0 then .error .indexNotZero
  else if data ≠ 0 then .error .dataNotZero
  else .ok i

/-- The opcode map of R73, taken after the check of `z`. -/
def decodeOp (op : BitVec 4) (idx : BitVec 3) (data : BitVec 16) : Except Reject Instr :=
  match op.toNat with
  | 0x1 => decodeVoice idx (.wrate idx data)
  | 0x2 => decodeVoice idx (.wwave idx (imm8Of data))
  | 0x3 => decodeVoice idx (.wvol idx (imm8Of data))
  | 0x4 => decodeNoIndex idx (.wnper (imm8Of data))
  | 0x5 => decodeNoIndex idx (.wnvol (imm8Of data))
  | 0x6 => decodeNoIndex idx (.wnwave (imm8Of data))
  | 0x7 => decodePlain idx data .reset
  | 0x8 => decodePlain idx data .frame
  | 0x9 => decodePlain idx data .sample
  | 0xA => decodePlain idx data .mono
  | 0xB => decodePlain idx data .stereo
  | 0xC => decodePlain idx data .hphone
  | 0xD => decodeNoIndex idx (.sink data)
  | _ => .error .illegalOpcode

/-- `decode(w)` of R77: total on every 24-bit word. -/
def decode (w : CommandWord) : Except Reject Instr :=
  if zField w then .error .reservedBit
  else decodeOp (opField w) (idxField w) (dataField w)

/-! ### Encoding (R71, R78) -/

/-- A word from its fields, `z` = 0 (R71). -/
def packWord (op : BitVec 4) (idx : BitVec 3) (data : BitVec 16) : CommandWord :=
  op ++ 0#1 ++ idx ++ data

/-- The word of a command, as the syntax of R78 spells it. The ignored bits `data[15:8]` of an 8-bit
write are written as 0 (DEDUCED from R78, log 16: safe). -/
def encode : Instr → CommandWord
  | .wrate v imm16 => packWord 0x1 v imm16
  | .wwave v imm8 => packWord 0x2 v (imm8.setWidth 16)
  | .wvol v imm8 => packWord 0x3 v (imm8.setWidth 16)
  | .wnper imm8 => packWord 0x4 0 (imm8.setWidth 16)
  | .wnvol imm8 => packWord 0x5 0 (imm8.setWidth 16)
  | .wnwave imm8 => packWord 0x6 0 (imm8.setWidth 16)
  | .reset => packWord 0x7 0 0
  | .frame => packWord 0x8 0 0
  | .sample => packWord 0x9 0 0
  | .mono => packWord 0xA 0 0
  | .stereo => packWord 0xB 0 0
  | .hphone => packWord 0xC 0 0
  | .sink ch => packWord 0xD 0 ch

/-- The expansion of a pseudo-instruction (R79). -/
def Pseudo.expand : Pseudo → List Instr
  | .fillMono n => List.replicate n .mono
  | .fillStereo n => List.replicate n .stereo
  | .fillHp n => List.replicate n .hphone
  | .fill ch n => List.replicate n (.sink ch)
  | .ticks n => List.replicate n .frame

/-- The words of a pseudo-instruction. -/
def Pseudo.words (p : Pseudo) : List CommandWord := p.expand.map encode

/-! ### Words as the opcode table numbers them -/

/-- The command word whose low `nbits` bits are those of `w`, every bit above them 0. A word is
presented whole (R70), so no byte order enters (R52; log 1). -/
def tableWord (nbits w : Nat) : CommandWord := BitVec.ofNat 24 (w % 2 ^ nbits)

/-- The command the decoder reads from the table word `w` of `nbits` bits; `none` where it
refuses. -/
def decodeTableWord (nbits w : Nat) : Option Instr :=
  match decode (tableWord nbits w) with
  | .ok i => some i
  | .error _ => none

end Sys2Proof
end

