-- ==== Sys2Proof/Config.lean ====
section
/-! DEFINITION. The parameters of 00_scope.md R7 that are fixed for one machine. Those the spec
leaves OPEN are opaque constants without a body, so that a proof holds whatever they are. The
waveform flag positions and `SIGNED_RESET_MASK` stand in Machine/Flags.lean, `T_DAC` and `T_PAN` in
Machine/Filter.lean. -/

namespace Sys2Proof.Config

/-- `NUM_VOICES` (R7): seven identical voices. -/
abbrev numVoices : Nat := 7

/-- `DELAY_LEN` (R7): samples per channel of the headphone delay line. -/
abbrev delayLen : Nat := 23

/-- `EXP` (R7, R10, decision D8, I5): OPEN, a total function from binary64 to binary64 that stands
for the exponential. DESIGN CHOICE (log 5, safe): nothing constrains it, so a claim names the
property of it that it rests on. -/
opaque exp : F64 → F64

/-- `SAMPLE_RATE` (R7, decision D9, I4): OPEN, the output rate in Hz. DESIGN CHOICE (log 6, safe):
nothing constrains it, not even that it is positive. -/
opaque sampleRate : F64

end Sys2Proof.Config
end

