-- ==== Sys2Proof/Machine/State.lean ====
section
/-! DEFINITION. The core's state, 10_state.md R21 to R38, as plain data; the result port and the
command port; the reasons of a fault and of a refusal; the state after construction. -/

namespace Sys2Proof.Machine

/-- The fault reasons of 60_exceptions.md R241. A faulting command of this core answers a NEXT state
with the bit `fault` set (R240), so no command stops the machine with one of these: they appear on
the result port only (DEDUCED, log 4). -/
inductive Fault where
  /-- Code 1. Raised by the decoder on an illegal command word (30_encoding.md R76), and by a voice
  write whose term holds voice 7 (log 12). Safe: the core's own outcome. -/
  | illegalCommand
  /-- Code 2. Raised by SINK with a channel count other than 1 or 2 (44_filter.md R216). Safe: the
  core's own outcome. -/
  | contractViolation
deriving DecidableEq, Repr

/-- Reasons the model has no meaning for an instruction. -/
inductive Refusal where
  /-- Raised by an arm of `exec` whose instruction has no meaning yet; no arm does. Safe. -/
  | notModelled (mnemonic : String)
deriving DecidableEq, Repr

/-- The four buses (10_state.md R34), the targets of the pan field (R25). -/
inductive Pan where
  | center
  | right
  | left
  | boosted
deriving DecidableEq, Repr

/-- One frame `(Center, Right, Left, Boosted)` of exact signed integers (30_encoding.md R72,
decision D16). -/
structure Frame where
  center : Int
  right : Int
  left : Int
  boosted : Int
deriving DecidableEq, Repr

/-- What a command returns on the result port (30_encoding.md R72). -/
inductive Result where
  /-- register writes and RESET -/
  | none
  /-- FRAME -/
  | frame (f : Frame)
  /-- SAMPLE, MONO, and SINK with one channel -/
  | value (x : F64)
  /-- STEREO, HPHONE, and SINK with two channels: (left, right) -/
  | pair (l r : F64)
  /-- a refused command -/
  | fault (reason : Fault)
deriving DecidableEq, Repr

/-- The registers of one voice (10_state.md R23 to R27). -/
structure Voice where
  /-- `target_rate`: slew class 15:14, `target14` 13:0 (R23) -/
  targetRate : BitVec 16
  /-- `real_rate`, the effective phase increment (R24) -/
  realRate : BitVec 14
  /-- `acc`, the phase accumulator (R27) -/
  acc : BitVec 16
  /-- `wave`, the waveform flags and the pan field (R25) -/
  wave : BitVec 8
  /-- `vol`: RST 7, LEVEL 6:0 (R26) -/
  vol : BitVec 8
deriving DecidableEq, Repr

/-- The registers of the noise unit (10_state.md R28 to R32). -/
structure Noise where
  /-- `nper`, the period (R28) -/
  nper : BitVec 8
  /-- `nvol`: RST 7, LEVEL 6:0 (R29) -/
  nvol : BitVec 8
  /-- `nwave`: PERIODIC 7, SKIP6..SKIP0 (R30) -/
  nwave : BitVec 8
  /-- `lfsr` (R31) -/
  lfsr : BitVec 15
  /-- `ncnt`, the period counter (R32, decision D6) -/
  ncnt : BitVec 8
deriving DecidableEq, Repr

/-- The histories of the filter stage (10_state.md R35 to R37). -/
structure FilterState where
  /-- `filt.mono_y` (R35) -/
  monoY : F64
  /-- `filt.st_yL` (R36) -/
  stYL : F64
  /-- `filt.st_yR` (R36) -/
  stYR : F64
  /-- `filt.hp_yL` (R37) -/
  hpYL : F64
  /-- `filt.hp_yR` (R37) -/
  hpYR : F64
  /-- `filt.hp_pL` (R37) -/
  hpPL : F64
  /-- `filt.hp_pR` (R37) -/
  hpPR : F64
  /-- `filt.hp_dL[0..22]` (R37) -/
  hpDL : Vector F64 Config.delayLen
  /-- `filt.hp_dR[0..22]` (R37) -/
  hpDR : Vector F64 Config.delayLen
  /-- `filt.hp_cur`, the write cursor both buffers share (R37) -/
  hpCur : Fin Config.delayLen
deriving DecidableEq, Repr

/-- The state of the core (10_state.md R21), and the model's two ports. -/
structure State where
  /-- `voice[0..6]` (R22) -/
  voices : Vector Voice Config.numVoices
  /-- the noise unit (R28 to R32) -/
  noise : Noise
  /-- `sample_number` (R33, decision D5) -/
  sampleNumber : Nat
  /-- the filter stage (R35 to R37) -/
  filt : FilterState
  /-- `fault`, the sticky fault bit (R38) -/
  fault : Bool
  /-- The result port (R72): what the last command returned. The model's own field (DESIGN CHOICE,
  log 3). -/
  result : Result
  /-- The command port (R70): the words the host has presented, oldest first. The model's own field
  (DESIGN CHOICE, log 1). -/
  pending : List CommandWord
deriving DecidableEq, Repr

/-- The binary64 value +0.0. -/
def zeroF : F64 := .finite false 0 0

/-- A voice after construction (R43). -/
def Voice.initial : Voice :=
  { targetRate := 0, realRate := 0, acc := 0, wave := 0, vol := 0 }

/-- The noise unit after construction (R43). -/
def Noise.initial : Noise := { nper := 0, nvol := 0, nwave := 0, lfsr := 1, ncnt := 0 }

/-- The filter stage after construction (R43, decision D20). -/
def FilterState.initial : FilterState :=
  { monoY := zeroF, stYL := zeroF, stYR := zeroF
    hpYL := zeroF, hpYR := zeroF, hpPL := zeroF, hpPR := zeroF
    hpDL := Vector.replicate Config.delayLen zeroF
    hpDR := Vector.replicate Config.delayLen zeroF
    hpCur := 0 }

/-- The state after construction (R43, 70_reset_and_hazards.md R260). The two ports are empty
(DESIGN CHOICE, log 1 and log 3). -/
def State.reset : State :=
  { voices := Vector.replicate Config.numVoices Voice.initial
    noise := Noise.initial
    sampleNumber := 0
    filt := FilterState.initial
    fault := false
    result := .none
    pending := [] }

end Sys2Proof.Machine
end

