-- ==== Sys2Proof/Machine/Float.lean ====
section
/-! DEFINITION. IEEE 754 binary64 arithmetic with round-to-nearest-ties-to-even (00_scope.md R10,
decision D8), with gradual underflow (44_filter.md R219). Every finite value is an integer number of
units of 2^-1074. An operation computes its exact result as a fraction of units and narrows it once.
The rules for infinities, NaN, signed zeros and division by zero are IEEE 754's, which R10 names
without listing them (PRESUMED, log 9). No status flag is state (R219). -/

namespace Sys2Proof.Machine

/-- 1.0, in units of 2^-1074. -/
@[irreducible] def unitsPerOne : Nat := 2 ^ 1074

/-- The magnitude of a finite value, in units: subnormal where the biased exponent is 0, else with
the hidden bit. -/
def magUnits (expo : Fin 2047) (frac : BitVec 52) : Nat :=
  if expo.val = 0 then frac.toNat else (2 ^ 52 + frac.toNat) * 2 ^ (expo.val - 1)

/-- The value of a finite datum, in units; 0 for the others. -/
def unitsOf : F64 → Int
  | .finite neg expo frac => if neg then -(magUnits expo frac : Int) else magUnits expo frac
  | .inf _ => 0
  | .nan => 0

/-- Whether a datum is finite. -/
def isFinite : F64 → Bool
  | .finite _ _ _ => true
  | .inf _ => false
  | .nan => false

/-- The integer nearest to n / d, the even one of two equally near. -/
def roundEven (n d : Nat) : Nat :=
  if 2 * (n % d) < d then n / d
  else if d < 2 * (n % d) then n / d + 1
  else n / d + (n / d) % 2

/-- The binade of n / d units: the base-2 logarithm of its unit in the last place. -/
def ulpShift (n d : Nat) : Nat := Nat.log2 (n / d) - 52

/-- The rank of the rounded magnitude among the non-negative finite values: biased exponent times
2^52 plus trailing significand. A significand that rounds up to the next power of two carries into
the exponent. -/
def roundRank (n d : Nat) : Nat :=
  2 ^ 52 * ulpShift n d + roundEven n (d * 2 ^ ulpShift n d)

/-- The datum of a sign and a rank; past the largest finite value, infinity (round-to-nearest
overflow). -/
def ofRank (neg : Bool) (rank : Nat) : F64 :=
  if h : rank / 2 ^ 52 < 2047 then .finite neg ⟨rank / 2 ^ 52, h⟩ (BitVec.ofNat 52 rank)
  else .inf neg

/-- n / d units with a sign, rounded once. -/
def roundMag (neg : Bool) (n d : Nat) : F64 := ofRank neg (roundRank n d)

/-- An exact sum of units, rounded; `negZero` is the sign of an exact zero. -/
def roundUnits (negZero : Bool) (u : Int) : F64 :=
  if u = 0 then .finite negZero 0 0 else roundMag (u < 0) u.natAbs 1

/-- The same value with the other sign. -/
def fneg : F64 → F64
  | .finite neg expo frac => .finite (!neg) expo frac
  | .inf neg => .inf (!neg)
  | .nan => .nan

/-- `fadd` (R10). An exact zero sum is +0.0 unless both operands are -0.0. -/
def fadd : F64 → F64 → F64
  | .nan, _ => .nan
  | .inf _, .nan => .nan
  | .finite _ _ _, .nan => .nan
  | .inf a, .inf b => if a = b then .inf a else .nan
  | .inf a, .finite _ _ _ => .inf a
  | .finite _ _ _, .inf b => .inf b
  | .finite a e f, .finite b e' f' =>
    roundUnits (a && b) (unitsOf (.finite a e f) + unitsOf (.finite b e' f'))

/-- `fsub` (R10): x - y is x + (-y). -/
def fsub (x y : F64) : F64 := fadd x (fneg y)

/-- Whether a finite datum is a zero. -/
def isZeroMag (expo : Fin 2047) (frac : BitVec 52) : Bool := magUnits expo frac = 0

/-- `fmul` (R10). -/
def fmul : F64 → F64 → F64
  | .nan, _ => .nan
  | .inf _, .nan => .nan
  | .finite _ _ _, .nan => .nan
  | .inf a, .inf b => .inf (a ^^ b)
  | .inf a, .finite b e f => if isZeroMag e f then .nan else .inf (a ^^ b)
  | .finite a e f, .inf b => if isZeroMag e f then .nan else .inf (a ^^ b)
  | .finite a e f, .finite b e' f' =>
    roundMag (a ^^ b) (magUnits e' f' * magUnits e f) unitsPerOne

/-- `fdiv` (R10). -/
def fdiv : F64 → F64 → F64
  | .nan, _ => .nan
  | .inf _, .nan => .nan
  | .finite _ _ _, .nan => .nan
  | .inf _, .inf _ => .nan
  | .inf a, .finite b _ _ => .inf (a ^^ b)
  | .finite a _ _, .inf b => .finite (a ^^ b) 0 0
  | .finite a e f, .finite b e' f' =>
    if isZeroMag e' f' then (if isZeroMag e f then .nan else .inf (a ^^ b))
    else roundMag (a ^^ b) (unitsPerOne * magUnits e f) (magUnits e' f')

/-- The binary64 value nearest n / d, for a non-negative decimal literal (44_filter.md R210). -/
def ofRatio (n d : Nat) : F64 := roundMag false (unitsPerOne * n) d

/-- `toF(n)` (R10): exact for every integer below 2^53 in magnitude; `toF(0)` is +0.0. -/
def toF (n : Int) : F64 := roundMag (n < 0) (unitsPerOne * n.natAbs) 1

end Sys2Proof.Machine
end

