-- ==== Sys2Proof/Machine/Flags.lean ====
section
/-! DEFINITION. The core has no status flags (10_state.md R39). Its flags are the bits of the `wave`,
`vol`, `nvol` and `nwave` registers. Their positions are the spec's decision D3 (R25) or the source's
(R26, R29, R30), each named once here (I11; log 7). -/

namespace Sys2Proof.Machine

/-- `INV8`: invert in the first eighth of the phase range (R25). -/
def bitInv8 : Nat := 0
/-- `INV4`: invert in the first quarter (R25). -/
def bitInv4 : Nat := 1
/-- `INV2`: invert in the first half (R25). -/
def bitInv2 : Nat := 2
/-- `INVA`: invert always (R25). -/
def bitInvA : Nat := 3
/-- `TOGC`: toggle `INVA` on accumulator carry (R25). -/
def bitTogC : Nat := 4
/-- `OUTA`: output the accumulator's top 6 bits (R25). -/
def bitOutA : Nat := 5
/-- The lower bit of `PAN`, bits 7:6 (R25). -/
def bitPan : Nat := 6
/-- `RST` of `vol` and `nvol` (R26, R29). -/
def bitRst : Nat := 7
/-- `PERIODIC` of `nwave` (R30). -/
def bitPeriodic : Nat := 7

/-- The mask of one bit of an 8-bit register. -/
def maskOf (bit : Nat) : BitVec 8 := 1#8 <<< bit

/-- `SIGNED_RESET_MASK` (00_scope.md R7, default 0xC0; decision D3, log 7). -/
def signedResetMask : BitVec 8 := 0xC0

/-- Both signed-reset polarity bits are set (41_voice.md R131). -/
def signedReset (wave : BitVec 8) : Bool := wave &&& signedResetMask == signedResetMask

/-- The `RST` flag of a volume register (R26, R29). -/
def rstFlag (vol : BitVec 8) : Bool := vol.getLsbD bitRst

/-- A volume register with its `RST` flag consumed: `vol & 0x7F` (R131, R160). -/
def clearRst (vol : BitVec 8) : BitVec 8 := vol &&& 0x7F

/-- The `TOGC` flag of a waveform register (R25). -/
def togcFlag (wave : BitVec 8) : Bool := wave.getLsbD bitTogC

/-- A waveform register with `INVA` flipped: `wave ^ 0x08` (R131). -/
def flipInvA (wave : BitVec 8) : BitVec 8 := wave ^^^ maskOf bitInvA

/-- The carry out of the 16-bit accumulator addition, which exists only within the tick (R39,
R131). -/
def carryOut (sum : Nat) : Bool := 65536 ≤ sum

end Sys2Proof.Machine
end

