-- ==== Sys2Proof/Machine/Operands.lean ====
section
/-! DEFINITION. The operand of a voice command, and the fields the rules read out of the registers
(30_encoding.md R74; 10_state.md R23, R25, R26, R29, R30). -/

namespace Sys2Proof.Machine

/-- The voice that `v` selects: 0..6; the value 7 selects none (R74, R76). -/
def voiceIndex (v : BitVec 3) : Option (Fin Config.numVoices) :=
  if h : v.toNat < Config.numVoices then some ⟨v.toNat, h⟩ else none

/-- `shift`, the slew class `target_rate[15:14]` (R23). -/
def slewClass (target : BitVec 16) : Nat := (target.extractLsb' 14 2).toNat

/-- `target14`, `target_rate[13:0]` (R23). -/
def target14 (target : BitVec 16) : BitVec 14 := target.extractLsb' 0 14

/-- `LEVEL`, bits 6:0 of a volume register (R26, R29). -/
def level (vol : BitVec 8) : BitVec 7 := vol.extractLsb' 0 7

/-- The bus that `PAN`, `wave[7:6]`, selects (R25, 41_voice.md R134). -/
def panOf (wave : BitVec 8) : Pan :=
  match (wave.extractLsb' bitPan 2).toNat with
  | 0 => .center
  | 1 => .right
  | 2 => .left
  | _ => .boosted

/-- Whether sub-step `i` is skipped: `SKIPi` for i in 0..6; sub-step 7 never is (R30, 42_noise.md
R161). -/
def subStepSkipped (nwave : BitVec 8) (i : Nat) : Bool := i != 7 && nwave.getLsbD i

/-- `PERIODIC`, the feedback tap selector (R30). -/
def periodicTap (nwave : BitVec 8) : Bool := nwave.getLsbD bitPeriodic

end Sys2Proof.Machine
end

