-- ==== Sys2Proof/Machine/Ops.lean ====
section
/-! DEFINITION. The named operations every meaning is written with: the one read and the one write of
a voice, the result port, the fault outcome, and the command port. The core has no addressable memory
(20_memory.md R50), so there is no memory operation. -/

namespace Sys2Proof.Machine

/-- The voice `v` (10_state.md R22). -/
def State.voice (s : State) (v : Fin Config.numVoices) : Voice := s.voices[v]

/-- Replace voice `v`; every other voice keeps its registers (R22). -/
def State.setVoice (s : State) (v : Fin Config.numVoices) (V : Voice) : State :=
  { s with voices := s.voices.set v V }

/-- Replace the noise unit's registers. -/
def State.setNoise (s : State) (N : Noise) : State := { s with noise := N }

/-- Replace the filter stage's histories. -/
def State.setFilt (s : State) (f : FilterState) : State := { s with filt := f }

/-- `emit(v)`: put a value on the result port (00_scope.md R9, 30_encoding.md R72). -/
def State.emit (s : State) (r : Result) : State := { s with result := r }

/-- The outcome of a faulting command, the core's one form of exception (60_exceptions.md R240):
`fault` is set, the reason goes to the result port, and nothing else is written. There is no handler,
no saved state and no return from it (R244); the core goes on to accept commands. -/
def State.raise (s : State) (reason : Fault) : State :=
  { s with fault := true, result := .fault reason }

/-- A write to the registers of the voice that `v` selects, which returns nothing (40_register_writes.md
R100, R72). Voice 7 is an illegal command (R76): the decoder refuses such a word, and a term that
holds it has the same outcome (DEDUCED, log 12: safe). -/
def State.writeVoice (s : State) (v : BitVec 3) (V : Voice → Voice) : State :=
  match voiceIndex v with
  | some k => (s.setVoice k (V (s.voice k))).emit .none
  | none => s.raise .illegalCommand

/-- A write to the registers of the noise unit, which returns nothing (R100, R72). -/
def State.writeNoise (s : State) (N : Noise → Noise) : State := (s.setNoise (N s.noise)).emit .none

/-- Take the oldest presented command word from the command port (R58, R70; log 1). -/
def State.fetch (s : State) : Option (CommandWord × State) :=
  match s.pending with
  | [] => none
  | w :: rest => some (w, { s with pending := rest })

/-- The host presents a word as the next one the core takes (log 1). -/
def State.present (s : State) (w : CommandWord) : State := { s with pending := w :: s.pending }

end Sys2Proof.Machine
end

