-- ==== Sys2Proof/Machine/VoiceUnit.lean ====
section
/-! DEFINITION. What one tick does to one voice (41_voice.md R130 to R135), as pure functions of the
voice's registers and of `sample_number` before the tick. -/

namespace Sys2Proof.Machine

/-- The slew gate: `sample_number` is a multiple of 2^(shift + 2) (R130). -/
def slewGateOpen (shift sn : Nat) : Bool := sn % 2 ^ (shift + 2) == 0

/-- One step of `real_rate` toward its target (R130). -/
def slewToward (target rate : BitVec 14) : BitVec 14 :=
  if rate < target then rate + 1
  else if target < rate then rate - 1
  else rate

/-- Step 1, the slew of `real_rate` (R130). -/
def Voice.slew (sn : Nat) (V : Voice) : Voice :=
  if slewClass V.targetRate = 0 then { V with realRate := target14 V.targetRate }
  else if slewGateOpen (slewClass V.targetRate) sn then
    { V with realRate := slewToward (target14 V.targetRate) V.realRate }
  else V

/-- `acc + real_rate + 1`, before it wraps (R131). -/
def Voice.phaseSum (V : Voice) : Nat := V.acc.toNat + V.realRate.toNat + 1

/-- Step 2, reset or advance (R131). -/
def Voice.resetOrAdvance (V : Voice) : Voice :=
  if rstFlag V.vol then
    { V with vol := clearRst V.vol, acc := if signedReset V.wave then 0x8000 else 0 }
  else
    { V with
      wave := if carryOut V.phaseSum && togcFlag V.wave then flipInvA V.wave else V.wave
      acc := BitVec.ofNat 16 V.phaseSum }

/-- XOR with 63 where an inversion applies (R132). -/
def invertIf (applies : Bool) (r : BitVec 6) : BitVec 6 := if applies then r ^^^ 63 else r

/-- Step 3, the waveform value `wavefn(acc, wave)` (R132). -/
def wavefn (acc : BitVec 16) (w : BitVec 8) : BitVec 6 :=
  let base : BitVec 6 := if w.getLsbD bitOutA then acc.extractLsb' 10 6 else 0
  let r8 := invertIf (w.getLsbD bitInv8 && acc.extractLsb' 13 3 == 0) base
  let r4 := invertIf (w.getLsbD bitInv4 && acc.extractLsb' 14 2 == 0) r8
  let r2 := invertIf (w.getLsbD bitInv2 && acc.extractLsb' 15 1 == 0) r4
  invertIf (w.getLsbD bitInvA) r2

/-- Step 4, the saturating signed multiply `q6(a, b)` (R133). `a` is not masked (decision D4). -/
def q6 (a : Nat) (b : BitVec 7) : Int :=
  if b.getLsbD 6 then (a : Int) - 32 else (((a : Int) - 32) * b.toNat) >>> 6

/-- The voice's contribution, read after step 2 (R132, R133, decision D17). -/
def Voice.contribution (V : Voice) : Int := q6 (wavefn V.acc V.wave).toNat (level V.vol)

/-- Steps 1 and 2 of a voice's tick (R135). -/
def Voice.tick (sn : Nat) (V : Voice) : Voice := (V.slew sn).resetOrAdvance

end Sys2Proof.Machine
end

