-- ==== Sys2Proof/Machine/NoiseUnit.lean ====
section
/-! DEFINITION. What one tick does to the noise unit (42_noise.md R160 to R164), as pure functions of
its registers. -/

namespace Sys2Proof.Machine

/-- The noise reset flag (R160). It leaves `ncnt` alone (decision D7). -/
def Noise.resetFlag (N : Noise) : Noise :=
  if rstFlag N.nvol then { N with nvol := clearRst N.nvol, lfsr := 1 } else N

/-- `lfsr_shift()` on a register value: the tap is bit 6 when `periodic`, else bit 1 (R162). -/
def lfsrShift (periodic : Bool) (lfsr : BitVec 15) : BitVec 15 :=
  let tap := if periodic then lfsr.getLsbD 6 else lfsr.getLsbD 1
  let fb := lfsr.getLsbD 0 ^^ tap
  (lfsr >>> 1) ||| ((BitVec.ofBool fb).setWidth 15 <<< 14)

/-- The period counter of a sub-step that is not skipped (R161). -/
def Noise.count (N : Noise) : Noise :=
  if N.ncnt = N.nper then { N with ncnt := 0, lfsr := lfsrShift (periodicTap N.nwave) N.lfsr }
  else { N with ncnt := N.ncnt + 1 }

/-- Sub-step `i`: the low bit of `lfsr` is added to the sum, then the counter runs unless the
sub-step is skipped (R161, decision D23). -/
def Noise.subStep (p : Noise × Nat) (i : Nat) : Noise × Nat :=
  (if subStepSkipped p.1.nwave i then p.1 else p.1.count, p.2 + (p.1.lfsr.getLsbD 0).toNat)

/-- The eight sub-steps of a tick, in order, from sum 0 (R161). -/
def Noise.subSteps (N : Noise) : Noise × Nat :=
  [0, 1, 2, 3, 4, 5, 6, 7].foldl Noise.subStep (N, 0)

/-- The noise registers after a tick (R164). -/
def Noise.tick (N : Noise) : Noise := N.resetFlag.subSteps.1

/-- The sum of the eight sub-steps of a tick (R161). -/
def Noise.tickSum (N : Noise) : Nat := N.resetFlag.subSteps.2

/-- The noise contribution of a tick: q6 of `sum | (sum << 3)` and the level, the value not masked
(R163, decision D4). -/
def Noise.contribution (N : Noise) : Int :=
  q6 (N.tickSum ||| (N.tickSum <<< 3)) (level N.tick.nvol)

end Sys2Proof.Machine
end

