-- ==== Sys2Proof/Machine/Mixer.lean ====
section
/-! DEFINITION. The tick, the buses and the mixes (43_mixer_generation.md R190, R194, R195). -/

namespace Sys2Proof.Machine

/-- Every bus at 0, as a tick starts (R190). -/
def Frame.silent : Frame := { center := 0, right := 0, left := 0, boosted := 0 }

/-- `bus[p] <- bus[p] + c` (41_voice.md R134). -/
def Frame.addTo (f : Frame) (p : Pan) (c : Int) : Frame :=
  match p with
  | .center => { f with center := f.center + c }
  | .right => { f with right := f.right + c }
  | .left => { f with left := f.left + c }
  | .boosted => { f with boosted := f.boosted + c }

/-- `voice_step(v)` on the state and the buses (41_voice.md R135). -/
def voiceStep (sn : Nat) (p : State × Frame) (v : Fin Config.numVoices) : State × Frame :=
  let V := (p.1.voice v).tick sn
  (p.1.setVoice v V, p.2.addTo (panOf V.wave) V.contribution)

/-- `noise_step()` on the state and the buses: the noise goes to Boosted (42_noise.md R164). -/
def noiseStep (p : State × Frame) : State × Frame :=
  (p.1.setNoise p.1.noise.tick, p.2.addTo .boosted p.1.noise.contribution)

/-- The voices in the order a tick steps them (decision D21). -/
def voiceOrder : List (Fin Config.numVoices) := [0, 1, 2, 3, 4, 5, 6]

/-- `core_tick()`: the state after one tick, and its frame (R190). -/
def coreTick (s : State) : State × Frame :=
  let p := noiseStep (voiceOrder.foldl (voiceStep s.sampleNumber) (s, Frame.silent))
  ({ p.1 with sampleNumber := s.sampleNumber + 1 }, p.2)

/-- The binary64 value 0.5. -/
@[irreducible] def halfF : F64 := ofRatio 1 2

/-- The combined mono mix (R194): the integer sum of three buses is formed first. -/
def combined (f : Frame) : F64 :=
  fadd (fmul (toF (f.center + f.right + f.left)) halfF) (toF f.boosted)

/-- The left channel of the authentic two-channel mix; `>>` rounds down (R195). -/
def leftRaw (f : Frame) : Int := f.left + f.boosted + f.center >>> 1

/-- The right channel of the authentic two-channel mix (R195). -/
def rightRaw (f : Frame) : Int := f.right + f.boosted + f.center >>> 1

end Sys2Proof.Machine
end

