-- ==== Sys2Proof/Machine/Filter.lean ====
section
/-! DEFINITION. The filter stage (44_filter.md R210 to R215). Each mode's step is a function of the
coefficients, the frame and the histories; the commands apply it to the coefficients of R210. -/

namespace Sys2Proof.Machine

/-! ### Coefficients (R210) -/

/-- 1.0 -/
@[irreducible] def oneF : F64 := ofRatio 1 1

/-- `T_DAC`, the binary64 value nearest 0.000024 (00_scope.md R7, R210). -/
@[irreducible] def tDac : F64 := ofRatio 24 1000000

/-- `T_PAN`, the binary64 value nearest 0.000103 (00_scope.md R7, R210). -/
@[irreducible] def tPan : F64 := ofRatio 103 1000000

/-- `EXP(fdiv(-1.0, fmul(rate, t)))`, for a given exponential (R210). -/
def decayOf (exp : F64 → F64) (rate t : F64) : F64 := exp (fdiv (fneg oneF) (fmul rate t))

/-- `fsub(1.0, fmul(fsub(1.0, k_dac), fsub(1.0, e_pan)))` (R210). -/
def panCoeffOf (kd ep : F64) : F64 := fsub oneF (fmul (fsub oneF kd) (fsub oneF ep))

/-- `k_dac` (R210). -/
def kDac : F64 := decayOf Config.exp Config.sampleRate tDac

/-- `e_pan` (R210). -/
def ePan : F64 := decayOf Config.exp Config.sampleRate tPan

/-- `k_pan` (R210). -/
def kPan : F64 := panCoeffOf kDac ePan

/-! ### Primitives -/

/-- The one-pole low-pass step, in the source's order (R211). -/
def lp (yPrev x k : F64) : F64 := fadd x (fmul (fsub yPrev x) k)

/-- The scaling of a binary64 value by 1/256 (R212). -/
def scaled (x : F64) : F64 := fdiv x (ofRatio 256 1)

/-- `fdiv(toF(n), 256.0)` (R212). -/
def scaledInt (n : Int) : F64 := scaled (toF n)

/-! ### The three modes -/

/-- The mono low-pass (R213). -/
def FilterState.monoStep (k : F64) (fr : Frame) (f : FilterState) : FilterState :=
  { f with monoY := lp f.monoY (scaled (combined fr)) k }

/-- The stereo low-pass, each channel with its own history (R214). -/
def FilterState.stereoStep (k : F64) (fr : Frame) (f : FilterState) : FilterState :=
  { f with
    stYL := lp f.stYL (scaledInt (leftRaw fr)) k
    stYR := lp f.stYR (scaledInt (rightRaw fr)) k }

/-- `(i + 1) mod 23` (R215). -/
def nextCursor (i : Fin Config.delayLen) : Fin Config.delayLen :=
  ⟨(i.val + 1) % Config.delayLen, Nat.mod_lt _ (by decide)⟩

/-- The low-pass histories of the headphone mode. The Right bus feeds the left delayed path and the
Left bus the right one (R215). -/
def FilterState.hpLowPass (k kp : F64) (fr : Frame) (f : FilterState) : FilterState :=
  { f with
    hpYL := lp f.hpYL (scaledInt (leftRaw fr)) k
    hpYR := lp f.hpYR (scaledInt (rightRaw fr)) k
    hpPL := lp f.hpPL (scaledInt fr.right) kp
    hpPR := lp f.hpPR (scaledInt fr.left) kp }

/-- The pair the headphone mode emits: each channel's history plus the slot at the cursor, read
before it is overwritten (R215). -/
def FilterState.hpOut (f : FilterState) : Result :=
  .pair (fadd f.hpYL f.hpDL[f.hpCur]) (fadd f.hpYR f.hpDR[f.hpCur])

/-- The pan histories enter the delay line at the cursor, and the cursor advances (R215). -/
def FilterState.hpPush (f : FilterState) : FilterState :=
  { f with
    hpDL := f.hpDL.set f.hpCur f.hpPL
    hpDR := f.hpDR.set f.hpCur f.hpPR
    hpCur := nextCursor f.hpCur }

/-! ### A tick with a filter mode, for given coefficients -/

/-- One tick and the mono filter (R213). -/
def monoTick (k : F64) (s : State) : State :=
  let f := (coreTick s).1.filt.monoStep k (coreTick s).2
  ((coreTick s).1.setFilt f).emit (.value f.monoY)

/-- One tick and the stereo filter (R214). -/
def stereoTick (k : F64) (s : State) : State :=
  let f := (coreTick s).1.filt.stereoStep k (coreTick s).2
  ((coreTick s).1.setFilt f).emit (.pair f.stYL f.stYR)

/-- One tick and the headphone network (R215). -/
def hphoneTick (k kp : F64) (s : State) : State :=
  let f := (coreTick s).1.filt.hpLowPass k kp (coreTick s).2
  ((coreTick s).1.setFilt f.hpPush).emit f.hpOut

end Sys2Proof.Machine
end

