-- ==== Sys2Proof/Machine/Generation.lean ====
section
/-! DEFINITION. The commands that generate one sample: FRAME and SAMPLE (43_mixer_generation.md R191,
R192), MONO, STEREO, HPHONE and SINK (44_filter.md R213 to R216). -/

namespace Sys2Proof.Machine

/-- FRAME (R191). -/
def execFrame (s : State) : Host.Outcome State Fault Refusal :=
  .next ((coreTick s).1.emit (.frame (coreTick s).2))

/-- SAMPLE (R192). -/
def execSample (s : State) : Host.Outcome State Fault Refusal :=
  .next ((coreTick s).1.emit (.value (combined (coreTick s).2)))

/-- MONO (R213). -/
def execMono (s : State) : Host.Outcome State Fault Refusal := .next (monoTick kDac s)

/-- STEREO (R214). -/
def execStereo (s : State) : Host.Outcome State Fault Refusal := .next (stereoTick kDac s)

/-- HPHONE (R215). -/
def execHphone (s : State) : Host.Outcome State Fault Refusal := .next (hphoneTick kDac kPan s)

/-- SINK ch (R216): MONO for one channel, STEREO for two (decision D11); any other count, taken
unmasked (decision D24), is a contract violation with no tick. -/
def execSink (ch : BitVec 16) (s : State) : Host.Outcome State Fault Refusal :=
  .next (if ch = 1 then monoTick kDac s
    else if ch = 2 then stereoTick kDac s
    else s.raise .contractViolation)

end Sys2Proof.Machine
end

