-- ==== Sys2Proof/Machine/RegisterWrites.lean ====
section
/-! DEFINITION. The commands that change registers without a tick (40_register_writes.md R100 to
R107). The decoder has truncated each operand to its register's width (R100, 30_encoding.md R74). -/

namespace Sys2Proof.Machine

/-- WRATE v, imm16 (R101). -/
def execWrate (v : BitVec 3) (imm16 : BitVec 16) (s : State) : Host.Outcome State Fault Refusal :=
  .next (s.writeVoice v fun V => { V with targetRate := imm16 })

/-- WWAVE v, imm8 (R102). -/
def execWwave (v : BitVec 3) (imm8 : BitVec 8) (s : State) : Host.Outcome State Fault Refusal :=
  .next (s.writeVoice v fun V => { V with wave := imm8 })

/-- WVOL v, imm8 (R103). -/
def execWvol (v : BitVec 3) (imm8 : BitVec 8) (s : State) : Host.Outcome State Fault Refusal :=
  .next (s.writeVoice v fun V => { V with vol := imm8 })

/-- WNPER imm8 (R104): the period counter is zeroed, whatever `imm8` is. -/
def execWnper (imm8 : BitVec 8) (s : State) : Host.Outcome State Fault Refusal :=
  .next (s.writeNoise fun N => { N with nper := imm8, ncnt := 0 })

/-- WNVOL imm8 (R105). -/
def execWnvol (imm8 : BitVec 8) (s : State) : Host.Outcome State Fault Refusal :=
  .next (s.writeNoise fun N => { N with nvol := imm8 })

/-- WNWAVE imm8 (R106). -/
def execWnwave (imm8 : BitVec 8) (s : State) : Host.Outcome State Fault Refusal :=
  .next (s.writeNoise fun N => { N with nwave := imm8 })

/-- The synthesis state at its construction values; `filt` and `fault` are kept (R107, decision
D10). -/
def State.resetSynth (s : State) : State :=
  { s with
    voices := Vector.replicate Config.numVoices Voice.initial
    noise := Noise.initial
    sampleNumber := 0 }

/-- RESET (R107). -/
def execReset (s : State) : Host.Outcome State Fault Refusal := .next (s.resetSynth.emit .none)

end Sys2Proof.Machine
end

