-- ==== Sys2Proof/Machine/Dispatch.lean ====
section
/-! DEFINITION. One arm per command, each a direct call of its meaning. -/

namespace Sys2Proof.Machine

def exec (i : Instr) (s : State) : Host.Outcome State Fault Refusal :=
  match i with
  | .wrate v imm16 => Sys2Proof.Machine.execWrate v imm16 s
  | .wwave v imm8 => Sys2Proof.Machine.execWwave v imm8 s
  | .wvol v imm8 => Sys2Proof.Machine.execWvol v imm8 s
  | .wnper imm8 => Sys2Proof.Machine.execWnper imm8 s
  | .wnvol imm8 => Sys2Proof.Machine.execWnvol imm8 s
  | .wnwave imm8 => Sys2Proof.Machine.execWnwave imm8 s
  | .reset => Sys2Proof.Machine.execReset s
  | .frame => Sys2Proof.Machine.execFrame s
  | .sample => Sys2Proof.Machine.execSample s
  | .mono => Sys2Proof.Machine.execMono s
  | .stereo => Sys2Proof.Machine.execStereo s
  | .hphone => Sys2Proof.Machine.execHphone s
  | .sink ch => Sys2Proof.Machine.execSink ch s

end Sys2Proof.Machine
end

