-- ==== Sys2Proof/Machine/Step.lean ====
section
/-! DEFINITION. One step: the core takes the oldest presented command word, decodes it and runs it
(20_memory.md R58, 30_encoding.md R70, R77). -/

namespace Sys2Proof.Machine

/-- One step. With no word presented the core is idle (DESIGN CHOICE, log 2). An illegal word is the
fault IllegalCommand, raised before any state is read (60_exceptions.md R241, R242). -/
def step (s : State) : Host.Outcome State Fault Refusal :=
  match s.fetch with
  | none => .next s
  | some (w, s') =>
    match decode w with
    | .ok i => exec i s'
    | .error _ => .next (s'.raise .illegalCommand)

/-- `s` with the table word `w` presented as the next command (log 1). -/
def State.withFetchWord (s : State) (nbits w : Nat) : State := s.present (tableWord nbits w)

end Sys2Proof.Machine
end

