-- ==== Sys2Proof/Safety.lean ====
section
/-! DEFINITION. The terms the claims use: what a safe run is, the invariants of 10_state.md R42 and
44_filter.md R219, runs of commands, and which commands tick. No rule of the machine stands here. -/

namespace Sys2Proof.Machine

/-! ### Runs -/

/-- The commands of a list, one after the other, stopping at the first fault or refusal (20_memory.md
R58). -/
def runInstrs : List Instr → State → Host.Outcome State Fault Refusal
  | [], s => .next s
  | i :: is, s =>
    match exec i s with
    | .next t => runInstrs is t
    | .fault r => .fault r
    | .refused r => .refused r

/-- A run of `n` steps that answers a next state whose `fault` bit is clear: a run whose `fault` is
true counts as gone wrong (60_exceptions.md R240). -/
def SafeRun (n : Nat) (s : State) : Prop :=
  ∃ t, Host.Core.run Sys2Proof.core n s = .next t ∧ t.fault = false

/-- The commands that run one tick (43_mixer_generation.md R190): the six generation commands, SINK
with a valid channel count only. -/
def tickCommand : Instr → Bool
  | .wrate _ _ => false
  | .wwave _ _ => false
  | .wvol _ _ => false
  | .wnper _ => false
  | .wnvol _ => false
  | .wnwave _ => false
  | .reset => false
  | .frame => true
  | .sample => true
  | .mono => true
  | .stereo => true
  | .hphone => true
  | .sink ch => ch == 1 || ch == 2

/-- The six register writes (40_register_writes.md R100). -/
def writeCommand : Instr → Bool
  | .wrate _ _ => true
  | .wwave _ _ => true
  | .wvol _ _ => true
  | .wnper _ => true
  | .wnvol _ => true
  | .wnwave _ => true
  | .reset => false
  | .frame => false
  | .sample => false
  | .mono => false
  | .stereo => false
  | .hphone => false
  | .sink _ => false

/-! ### Frames of the state -/

/-- All but the named voice and the result port is as before. -/
def SameOutsideVoice (k : Fin Config.numVoices) (s t : State) : Prop :=
  (∀ u, u ≠ k → t.voice u = s.voice u) ∧ t.noise = s.noise ∧ t.sampleNumber = s.sampleNumber ∧
    t.filt = s.filt ∧ t.fault = s.fault ∧ t.pending = s.pending

/-- All but the noise registers and the result port is as before. -/
def SameOutsideNoise (s t : State) : Prop :=
  t.voices = s.voices ∧ t.sampleNumber = s.sampleNumber ∧ t.filt = s.filt ∧ t.fault = s.fault ∧
    t.pending = s.pending

/-- The synthesis states agree: voices, noise and `sample_number` (70_reset_and_hazards.md R261). -/
def SameSynthesis (s t : State) : Prop :=
  t.voices = s.voices ∧ t.noise = s.noise ∧ t.sampleNumber = s.sampleNumber

/-- The state a word refused by the decoder leaves (60_exceptions.md R240, R241). -/
def illegalOutcome (s : State) : Host.Outcome State Fault Refusal :=
  .next { s with fault := true, result := .fault .illegalCommand }

/-- The state SINK leaves when it is a contract violation (R240, R241). -/
def contractOutcome (s : State) : Host.Outcome State Fault Refusal :=
  .next { s with fault := true, result := .fault .contractViolation }

/-! ### The host-written registers (10_state.md R40) -/

/-- A register that a register write replaces. -/
inductive HostReg where
  | rate (v : Fin Config.numVoices)
  | wave (v : Fin Config.numVoices)
  | vol (v : Fin Config.numVoices)
  | nper
  | nvol
  | nwave
deriving DecidableEq, Repr

/-- What a host-written register holds, zero-extended to 16 bits. -/
def State.hostReg (s : State) : HostReg → BitVec 16
  | .rate v => (s.voice v).targetRate
  | .wave v => (s.voice v).wave.setWidth 16
  | .vol v => (s.voice v).vol.setWidth 16
  | .nper => s.noise.nper.setWidth 16
  | .nvol => s.noise.nvol.setWidth 16
  | .nwave => s.noise.nwave.setWidth 16

/-- The register a command writes and the value it writes; `none` for a command that is no register
write of a voice in 0..6 or of the noise unit. -/
def writeOf : Instr → Option (HostReg × BitVec 16)
  | .wrate v imm16 => (voiceIndex v).map fun k => (.rate k, imm16)
  | .wwave v imm8 => (voiceIndex v).map fun k => (.wave k, imm8.setWidth 16)
  | .wvol v imm8 => (voiceIndex v).map fun k => (.vol k, imm8.setWidth 16)
  | .wnper imm8 => some (.nper, imm8.setWidth 16)
  | .wnvol imm8 => some (.nvol, imm8.setWidth 16)
  | .wnwave imm8 => some (.nwave, imm8.setWidth 16)
  | .reset => none
  | .frame => none
  | .sample => none
  | .mono => none
  | .stereo => none
  | .hphone => none
  | .sink _ => none

/-- The value the last write to `r` in a list of commands writes, `old` if none does (R108). -/
def lastWritten (r : HostReg) (old : BitVec 16) : List Instr → BitVec 16
  | [] => old
  | i :: is =>
    match writeOf i with
    | some (r', x) => lastWritten r (if r' = r then x else old) is
    | none => lastWritten r old is

/-! ### The invariant of every reachable state (10_state.md R42) -/

/-- Points 1 to 4 of R42. Points 1 and 4 also follow from the widths of the fields. -/
def State.Inv (s : State) : Prop :=
  (∀ v, (s.voice v).realRate.toNat ≤ 0x3FFF) ∧ s.noise.ncnt.toNat ≤ s.noise.nper.toNat ∧
    s.noise.lfsr ≠ 0 ∧ s.filt.hpCur.val ≤ 22

/-- The number of sub-steps of a tick that are not skipped: 1 + (number of zero bits in nwave[6:0])
(70_reset_and_hazards.md R268). -/
def activeSubSteps (nwave : BitVec 8) : Nat :=
  1 + ([0, 1, 2, 3, 4, 5, 6].filter fun i => !nwave.getLsbD i).length

/-- The number of sub-steps before sub-step `i` that are not skipped: sub-step 7 never is (10_state.md
R30, 42_noise.md R161). -/
def activeBefore (nwave : BitVec 8) (i : Nat) : Nat :=
  ((List.range i).filter fun j => j == 7 || !nwave.getLsbD j).length

/-- The LFSR as the sub-steps of a tick find it: 1 if the noise reset flag is set (R160). -/
def lfsrAtTick (N : Noise) : BitVec 15 := if N.nvol.getLsbD 7 then 1 else N.lfsr

/-- The delay slot the cursor `c` reaches after `n` HPHONE commands (44_filter.md R215). -/
def slotAfter (c : Fin Config.delayLen) (n : Nat) : Fin Config.delayLen :=
  ⟨(c.val + n) % Config.delayLen, Nat.mod_lt _ (Nat.succ_pos _)⟩

/-! ### Values of binary64 data -/

/-- The rational value of a finite datum; 0 for the others. -/
def valueOf (x : F64) : ℚ := (unitsOf x : ℚ) / 2 ^ 1074

/-- -0.0 -/
def negZeroF : F64 := .finite true 0 0

/-- The least significant bit of the trailing significand is 0. -/
def evenSignificand : F64 → Bool
  | .finite _ _ frac => !frac.getLsbD 0
  | .inf _ => false
  | .nan => false

/-- `x` is the finite value nearest `q`, the one with an even significand of two equally near
(00_scope.md R10). -/
def NearestEven (q : ℚ) (x : F64) : Prop :=
  isFinite x = true ∧ ∀ y, isFinite y = true →
    |q - valueOf x| ≤ |q - valueOf y| ∧
      (|q - valueOf x| = |q - valueOf y| → valueOf y = valueOf x ∨ evenSignificand x = true)

/-- The least magnitude that rounds to infinity: halfway from the largest finite value to 2^1024
(PRESUMED, log 9). -/
def overflowBound : ℚ := 2 ^ 1024 - 2 ^ 970

/-- `x` is `q` rounded to nearest even (R10), infinity with the sign of `q` from `overflowBound` on
(PRESUMED, log 9). -/
def RoundsTo (q : ℚ) (x : F64) : Prop :=
  (|q| < overflowBound → NearestEven q x) ∧
    (overflowBound ≤ |q| → x = .inf (decide (q < 0)))

/-- A coefficient in the closed unit interval. -/
def InUnit (k : F64) : Prop := isFinite k = true ∧ 0 ≤ valueOf k ∧ valueOf k ≤ 1

/-- A coefficient in the open unit interval (44_filter.md R219). -/
def InOpenUnit (k : F64) : Prop := isFinite k = true ∧ 0 < valueOf k ∧ valueOf k < 1

/-- A history in the range of R219: finite, not -0.0, from -1 to 257/256. -/
def HistoryOk (x : F64) : Prop :=
  isFinite x = true ∧ x ≠ negZeroF ∧ -1 ≤ valueOf x ∧ valueOf x ≤ 257 / 256

/-- An HPHONE output in the range of R219: finite, not -0.0, within twice a history's range. -/
def OutputOk (x : F64) : Prop :=
  isFinite x = true ∧ x ≠ negZeroF ∧ -2 ≤ valueOf x ∧ valueOf x ≤ 257 / 128

/-- Every history and every delay slot is in range (R219). -/
def FilterState.Bounded (f : FilterState) : Prop :=
  HistoryOk f.monoY ∧ HistoryOk f.stYL ∧ HistoryOk f.stYR ∧ HistoryOk f.hpYL ∧ HistoryOk f.hpYR ∧
    HistoryOk f.hpPL ∧ HistoryOk f.hpPR ∧
    ∀ j : Fin Config.delayLen, HistoryOk f.hpDL[j] ∧ HistoryOk f.hpDR[j]

end Sys2Proof.Machine
end

