-- ==== Sys2Proof/Certificates/Slice0/Obligations.lean ====
section
/-! DEFINITION. The statements about the core, one per rule or group of rules of spec/. In a statement,
`s.present w` is the state `s` with the command word `w` presented as the next one, so that
`step (s.present w)` issues `w` in `s`. -/

open Sys2Proof Sys2Proof.Machine

/-! ### Encoding and the step -/

/-- Every well-formed command's word decodes to it, with every operand at every value (R77, R78). -/
def Obligations.DecodeEncodeRoundTrip : Prop :=
  ∀ i : Instr, i.wellFormed = true → decode (encode i) = .ok i

/-- A word that decodes is the encoding of its command, up to the ignored bits data[15:8] of an 8-bit
write (R74, R77). -/
def Obligations.EncodeDecodeUpToIgnoredBits : Prop :=
  ∀ (w : CommandWord) (i : Instr), decode w = .ok i →
    i.wellFormed = true ∧
      encode i =
        if 2 ≤ w.toNat / 2 ^ 20 ∧ w.toNat / 2 ^ 20 ≤ 6 then w &&& 0xFF00FF#24 else w

/-- The illegal words are those R76 lists and no others, and each is the fault IllegalCommand. A SINK
word is legal whatever its count. -/
def Obligations.IllegalWordsExactly : Prop :=
  (∀ (op : BitVec 4) (z : BitVec 1) (idx : BitVec 3) (data : BitVec 16),
    (op = 0x0 ∨ op = 0xE ∨ op = 0xF ∨ ((op = 1 ∨ op = 2 ∨ op = 3) ∧ idx = 7) ∨
      (z ≠ 0 ∨ (¬(op = 1 ∨ op = 2 ∨ op = 3) ∧ idx ≠ 0) ∨
        ((op = 7 ∨ op = 8 ∨ op = 9 ∨ op = 0xA ∨ op = 0xB ∨ op = 0xC) ∧ data ≠ 0))) ↔
      ∃ r, decode (op ++ z ++ idx ++ data) = .error r) ∧
  (∀ (w : CommandWord) (r : Reject), decode w = .error r →
    ∀ s : State, step (s.present w) = illegalOutcome s) ∧
  (∀ ch : BitVec 16, decode (0xD#4 ++ 0#1 ++ 0#3 ++ ch) = .ok (.sink ch) ∧
    (ch ≠ 1 → ch ≠ 2 → ∀ s : State,
      step (s.present (0xD#4 ++ 0#1 ++ 0#3 ++ ch)) = contractOutcome s))

/-- A step runs the decoded command on the state less its word. -/
def Obligations.StepRunsDecodedCommand : Prop :=
  ∀ (s : State) (w : CommandWord) (rest : List CommandWord) (i : Instr),
    s.pending = w :: rest → decode w = .ok i → i.wellFormed = true →
      step s = exec i { s with pending := rest }

/-- THE MODEL'S CHOICE (log 2, DESIGN CHOICE): with no word presented a step changes nothing. -/
def Obligations.StepIdlesWithoutCommand : Prop :=
  ∀ s : State, s.pending = [] → step s = .next s

/-- Words written out from R78 and 95_test_vectors.md decode to the commands they stand for. -/
def Obligations.SpecWordsDecode : Prop :=
  decode 0x124004 = .ok (.wrate 2 0x4004) ∧ decode 0x260048 = .ok (.wwave 6 0x48) ∧
    decode 0x3300C0 = .ok (.wvol 3 0xC0) ∧ decode 0x4001FF = .ok (.wnper 0xFF) ∧
    decode 0x500020 = .ok (.wnvol 0x20) ∧ decode 0x600055 = .ok (.wnwave 0x55) ∧
    decode 0x700000 = .ok .reset ∧ decode 0x800000 = .ok .frame ∧ decode 0x900000 = .ok .sample ∧
    decode 0xA00000 = .ok .mono ∧ decode 0xB00000 = .ok .stereo ∧ decode 0xC00000 = .ok .hphone ∧
    decode 0xD00101 = .ok (.sink 0x101)

/-- The words of a list of commands, presented in order, run those commands in that order and no
other word (R58). -/
def Obligations.PresentedWordsRunInOrder : Prop :=
  ∀ (is : List Instr) (rest : List CommandWord) (s : State), (∀ i ∈ is, i.wellFormed = true) →
    Host.Core.run Sys2Proof.core is.length { s with pending := is.map encode ++ rest } =
      runInstrs is { s with pending := rest }

/-! ### Register writes and RESET -/

/-- WRATE (R101): encoding, effect, frame, exceptions, and the next tick of an instant rate, which sets
`real_rate` and, with no pending reset, advances the accumulator by the rate + 1. -/
def Obligations.WrateSetsTargetRate : Prop :=
  ∀ (v : BitVec 3) (imm16 : BitVec 16) (s : State),
    (∀ k : Fin Config.numVoices, v.toNat = k.val →
      step (s.present (0x1#4 ++ 0#1 ++ v ++ imm16)) = exec (.wrate v imm16) s ∧
      ∃ t, exec (.wrate v imm16) s = .next t ∧
        t.voice k = { s.voice k with targetRate := imm16 } ∧ t.result = .none ∧
        SameOutsideVoice k s t ∧
        (imm16.toNat < 2 ^ 14 → ∀ i : Instr, tickCommand i = true → ∃ u, exec i t = .next u ∧
          (u.voice k).realRate.toNat = imm16.toNat ∧
          ((s.voice k).vol.getLsbD 7 = false →
            (u.voice k).acc.toNat = ((s.voice k).acc.toNat + imm16.toNat + 1) % 65536))) ∧
    (v = 7 → step (s.present (0x1#4 ++ 0#1 ++ v ++ imm16)) = illegalOutcome s) ∧
    step (s.present (0x1#4 ++ 1#1 ++ v ++ imm16)) = illegalOutcome s

/-- WWAVE (R102): encoding with data[15:8] ignored, effect, frame, exceptions, and a pending reset
that reads the polarity written here. -/
def Obligations.WwaveSetsWaveform : Prop :=
  ∀ (v : BitVec 3) (data : BitVec 16) (imm8 : BitVec 8) (s : State),
    (∀ k : Fin Config.numVoices, v.toNat = k.val →
      step (s.present (0x2#4 ++ 0#1 ++ v ++ data)) = exec (.wwave v (data.setWidth 8)) s ∧
      ∃ t, exec (.wwave v imm8) s = .next t ∧
        t.voice k = { s.voice k with wave := imm8 } ∧ t.result = .none ∧ SameOutsideVoice k s t ∧
        ((s.voice k).vol.getLsbD 7 = true → ∀ i : Instr, tickCommand i = true →
          ∃ u, exec i t = .next u ∧
            (u.voice k).acc = if imm8 &&& signedResetMask = signedResetMask then 0x8000 else 0)) ∧
    (v = 7 → step (s.present (0x2#4 ++ 0#1 ++ v ++ data)) = illegalOutcome s) ∧
    step (s.present (0x2#4 ++ 1#1 ++ v ++ data)) = illegalOutcome s

/-- WVOL (R103): encoding, effect, frame, exceptions, and the next tick: with bit 7 set it resets the
accumulator and clears the bit, with bit 7 clear it does not reset; levels of 64 and more are full
scale, level 0 is silent. -/
def Obligations.WvolSetsVolume : Prop :=
  ∀ (v : BitVec 3) (data : BitVec 16) (imm8 : BitVec 8) (s : State),
    (∀ k : Fin Config.numVoices, v.toNat = k.val →
      step (s.present (0x3#4 ++ 0#1 ++ v ++ data)) = exec (.wvol v (data.setWidth 8)) s ∧
      ∃ t, exec (.wvol v imm8) s = .next t ∧
        t.voice k = { s.voice k with vol := imm8 } ∧ t.result = .none ∧ SameOutsideVoice k s t ∧
        ∀ i : Instr, tickCommand i = true → ∃ u, exec i t = .next u ∧
          (u.voice k).vol = imm8 &&& 0x7F ∧
          (128 ≤ imm8.toNat → (u.voice k).acc =
            if (s.voice k).wave &&& signedResetMask = signedResetMask then 0x8000 else 0) ∧
          (imm8.toNat < 128 → (u.voice k).acc.toNat =
            ((s.voice k).acc.toNat + (u.voice k).realRate.toNat + 1) % 65536) ∧
          (64 ≤ imm8.toNat % 128 → (u.voice k).contribution =
            (wavefn (u.voice k).acc (u.voice k).wave).toNat - 32) ∧
          (imm8.toNat % 128 = 0 → (u.voice k).contribution = 0)) ∧
    (v = 7 → step (s.present (0x3#4 ++ 0#1 ++ v ++ data)) = illegalOutcome s) ∧
    step (s.present (0x3#4 ++ 1#1 ++ v ++ data)) = illegalOutcome s

/-- WNPER (R104): the period is replaced and the counter zeroed, whatever the period was. -/
def Obligations.WnperSetsPeriodZeroesCounter : Prop :=
  ∀ (data : BitVec 16) (imm8 : BitVec 8) (s : State),
    step (s.present (0x4#4 ++ 0#1 ++ 0#3 ++ data)) = exec (.wnper (data.setWidth 8)) s ∧
    (∃ t, exec (.wnper imm8) s = .next t ∧ t.noise = { s.noise with nper := imm8, ncnt := 0 } ∧
      t.result = .none ∧ SameOutsideNoise s t) ∧
    ∀ (z : BitVec 1) (idx : BitVec 3), z ≠ 0 ∨ idx ≠ 0 →
      step (s.present (0x4#4 ++ z ++ idx ++ data)) = illegalOutcome s

/-- WNVOL (R105): the volume is replaced; with bit 7 set the next tick runs from `lfsr` = 1 with bit 7
clear and the counter kept; levels of 64 and more are full scale. -/
def Obligations.WnvolSetsVolume : Prop :=
  ∀ (data : BitVec 16) (imm8 : BitVec 8) (s : State),
    step (s.present (0x5#4 ++ 0#1 ++ 0#3 ++ data)) = exec (.wnvol (data.setWidth 8)) s ∧
    (∃ t, exec (.wnvol imm8) s = .next t ∧ t.noise = { s.noise with nvol := imm8 } ∧
      t.result = .none ∧ SameOutsideNoise s t ∧
      (imm8.getLsbD 7 = true → ∀ i : Instr, tickCommand i = true → ∃ u, exec i t = .next u ∧
        u.noise = Noise.tick { s.noise with nvol := imm8 &&& 0x7F, lfsr := 1 } ∧
        u.noise.nvol.getLsbD 7 = false) ∧
      (64 ≤ imm8.toNat % 128 → t.noise.contribution = 9 * t.noise.tickSum - 32)) ∧
    ∀ (z : BitVec 1) (idx : BitVec 3), z ≠ 0 ∨ idx ≠ 0 →
      step (s.present (0x5#4 ++ z ++ idx ++ data)) = illegalOutcome s

/-- WNWAVE (R106): the waveform is replaced; with all seven skip bits set the counter advances once a
tick, and bit 7 never changes what the counter does. -/
def Obligations.WnwaveSetsWaveform : Prop :=
  ∀ (data : BitVec 16) (imm8 : BitVec 8) (s : State),
    step (s.present (0x6#4 ++ 0#1 ++ 0#3 ++ data)) = exec (.wnwave (data.setWidth 8)) s ∧
    (∃ t, exec (.wnwave imm8) s = .next t ∧ t.noise = { s.noise with nwave := imm8 } ∧
      t.result = .none ∧ SameOutsideNoise s t ∧
      (imm8 &&& 0x7F = 0x7F → ∀ i : Instr, tickCommand i = true → ∃ u, exec i t = .next u ∧
        u.noise.ncnt = if s.noise.ncnt = s.noise.nper then 0 else s.noise.ncnt + 1) ∧
      ∀ i : Instr, tickCommand i = true → ∃ t' u u', exec (.wnwave (imm8 ^^^ 0x80)) s = .next t' ∧
        exec i t = .next u ∧ exec i t' = .next u' ∧ u.noise.ncnt = u'.noise.ncnt) ∧
    ∀ (z : BitVec 1) (idx : BitVec 3), z ≠ 0 ∨ idx ≠ 0 →
      step (s.present (0x6#4 ++ z ++ idx ++ data)) = illegalOutcome s

/-- RESET (R107): the synthesis state takes its construction values, `filt` and `fault` are kept, no
tick runs; it is idempotent; a non-zero `z`, `idx` or `data` is illegal; a FRAME after it is silent. -/
def Obligations.ResetClearsSynthesis : Prop :=
  ∀ s : State,
    step (s.present (0x7#4 ++ 0#1 ++ 0#3 ++ 0#16)) = exec .reset s ∧
    (∃ t, exec .reset s = .next t ∧
      (∀ v, t.voice v = { targetRate := 0, realRate := 0, acc := 0, wave := 0, vol := 0 }) ∧
      t.noise = { nper := 0, nvol := 0, nwave := 0, lfsr := 1, ncnt := 0 } ∧
      t.sampleNumber = 0 ∧ t.filt = s.filt ∧ t.fault = s.fault ∧ t.pending = s.pending ∧
      t.result = .none ∧ exec .reset t = .next t ∧
      ∃ u, exec .frame t = .next u ∧
        u.result = .frame { center := 0, right := 0, left := 0, boosted := 0 }) ∧
    ∀ (z : BitVec 1) (idx : BitVec 3) (data : BitVec 16), z ≠ 0 ∨ idx ≠ 0 ∨ data ≠ 0 →
      step (s.present (0x7#4 ++ z ++ idx ++ data)) = illegalOutcome s

/-- After RESET the synthesis state is a freshly constructed core's; the filter state and `fault` are
as before (R261). -/
def Obligations.ResetRoundTrip : Prop :=
  ∀ s : State, ∃ t, exec .reset s = .next t ∧ SameSynthesis State.reset t ∧ t.filt = s.filt ∧
    t.fault = s.fault

/-- THE MODEL'S CHOICE (log 12, DEDUCED): a voice write whose term holds voice 7 is the fault
IllegalCommand, as its word is. -/
def Obligations.VoiceSevenIsIllegal : Prop :=
  ∀ (s : State) (imm16 : BitVec 16) (imm8 : BitVec 8),
    exec (.wrate 7 imm16) s = illegalOutcome s ∧ exec (.wwave 7 imm8) s = illegalOutcome s ∧
      exec (.wvol 7 imm8) s = illegalOutcome s

/-- Register writes and RESET are idempotent; a tick command is not (R56). -/
def Obligations.WritesIdempotentTicksNot : Prop :=
  (∀ (i : Instr) (s : State), writeCommand i = true ∨ i = .reset →
    ∃ t, exec i s = .next t ∧ exec i t = .next t) ∧
  (∀ (i : Instr) (s : State), tickCommand i = true →
    ∃ t u, exec i s = .next t ∧ exec i t = .next u ∧
      t.sampleNumber = s.sampleNumber + 1 ∧ u.sampleNumber = s.sampleNumber + 2)

/-- After a list of writes with no tick between them, each register holds the value of the last write
to it, the counter is 0 if the period was among them, and nothing else but the result port is
written (R108). -/
def Obligations.LastWriteWins : Prop :=
  ∀ (is : List Instr) (s : State), (∀ i ∈ is, (writeOf i).isSome = true) →
    ∃ t, runInstrs is s = .next t ∧
      (∀ r, t.hostReg r = lastWritten r (s.hostReg r) is) ∧
      ((∃ imm8, Instr.wnper imm8 ∈ is) → t.noise.ncnt = 0) ∧
      ((∀ imm8, Instr.wnper imm8 ∉ is) → t.noise.ncnt = s.noise.ncnt) ∧
      (∀ v, (t.voice v).realRate = (s.voice v).realRate ∧ (t.voice v).acc = (s.voice v).acc) ∧
      t.noise.lfsr = s.noise.lfsr ∧ t.sampleNumber = s.sampleNumber ∧ t.filt = s.filt ∧
      t.fault = s.fault

/-! ### The voices -/

/-- Every tick command runs one tick: each voice and the noise unit take their step, `sample_number`
grows by 1, and `fault` and the presented words are kept (R190). -/
def Obligations.TickCommandsRunOneTick : Prop :=
  ∀ (i : Instr) (s : State), tickCommand i = true → ∃ t, exec i s = .next t ∧
    (∀ v, t.voice v = (s.voice v).tick s.sampleNumber) ∧ t.noise = s.noise.tick ∧
    t.sampleNumber = s.sampleNumber + 1 ∧ t.fault = s.fault ∧ t.pending = s.pending

/-- The slew of every voice in every tick command, in numbers (R130). -/
def Obligations.TickSlewsRealRate : Prop :=
  ∀ (i : Instr) (s : State), tickCommand i = true → ∃ t, exec i s = .next t ∧
    ∀ v : Fin Config.numVoices,
      (t.voice v).targetRate = (s.voice v).targetRate ∧
      (t.voice v).realRate.toNat =
        if (s.voice v).targetRate.toNat / 2 ^ 14 = 0 then (s.voice v).targetRate.toNat % 2 ^ 14
        else if s.sampleNumber % 2 ^ ((s.voice v).targetRate.toNat / 2 ^ 14 + 2) = 0 then
          if (s.voice v).realRate.toNat < (s.voice v).targetRate.toNat % 2 ^ 14 then
            (s.voice v).realRate.toNat + 1
          else if (s.voice v).targetRate.toNat % 2 ^ 14 < (s.voice v).realRate.toNat then
            (s.voice v).realRate.toNat - 1
          else (s.voice v).realRate.toNat
        else (s.voice v).realRate.toNat

/-- Reset or advance of every voice in every tick command, in numbers: a set RST is consumed with no
advance and no carry; otherwise the accumulator moves by the slewed `real_rate` + 1 modulo 65536 and
a carry flips INVA where TOGC is set (R131). -/
def Obligations.TickResetsOrAdvances : Prop :=
  ∀ (i : Instr) (s : State), tickCommand i = true → ∃ t, exec i s = .next t ∧
    ∀ v : Fin Config.numVoices,
      ((s.voice v).vol.getLsbD 7 = true →
        (t.voice v).vol = (s.voice v).vol &&& 0x7F ∧ (t.voice v).wave = (s.voice v).wave ∧
        (t.voice v).acc =
          if (s.voice v).wave &&& signedResetMask = signedResetMask then 0x8000 else 0) ∧
      ((s.voice v).vol.getLsbD 7 = false →
        (t.voice v).vol = (s.voice v).vol ∧
        (t.voice v).acc.toNat =
          ((s.voice v).acc.toNat + (t.voice v).realRate.toNat + 1) % 65536 ∧
        (t.voice v).wave =
          if 65536 ≤ (s.voice v).acc.toNat + (t.voice v).realRate.toNat + 1 ∧
              (s.voice v).wave.getLsbD 4 = true then
            (s.voice v).wave ^^^ 0x08
          else (s.voice v).wave)

/-- The waveform value is the base, or 63 less the base where an odd number of inversions apply, and
a voice's step evaluates it on the accumulator and waveform its tick leaves (R132, R25). -/
def Obligations.WaveformIsInvertedBase : Prop :=
  (∀ (acc : BitVec 16) (w : BitVec 8),
    (wavefn acc w).toNat =
      if ((w.getLsbD 0 && decide (acc.toNat < 0x2000)).toNat +
          (w.getLsbD 1 && decide (acc.toNat < 0x4000)).toNat +
          (w.getLsbD 2 && decide (acc.toNat < 0x8000)).toNat + (w.getLsbD 3).toNat) % 2 = 0
      then (if w.getLsbD 5 then acc.toNat / 1024 else 0)
      else 63 - (if w.getLsbD 5 then acc.toNat / 1024 else 0)) ∧
  ∀ (sn : Nat) (p : State × Frame) (v : Fin Config.numVoices),
    (voiceStep sn p v).2 = p.2.addTo (panOf ((p.1.voice v).tick sn).wave)
      (q6 (wavefn ((p.1.voice v).tick sn).acc ((p.1.voice v).tick sn).wave).toNat
        (((p.1.voice v).tick sn).vol.setWidth 7))

/-- The saturating multiply: a - 32 from volume 64 on, else the product divided by 64 rounded down;
with its corner cases and the ranges of its two callers; a voice's contribution is q6 of its
waveform value and the low seven bits of its volume (R133). -/
def Obligations.MultiplySaturatesAndFloors : Prop :=
  (∀ V : Voice, V.contribution = q6 (wavefn V.acc V.wave).toNat (V.vol.setWidth 7) ∧
    -32 ≤ V.contribution ∧ V.contribution ≤ 31) ∧
  ∀ (a : Nat) (b : BitVec 7),
    (64 ≤ b.toNat → q6 a b = (a : Int) - 32) ∧
    (b.toNat < 64 →
      64 * q6 a b ≤ ((a : Int) - 32) * b.toNat ∧ ((a : Int) - 32) * b.toNat < 64 * q6 a b + 64) ∧
    (b = 0 → q6 a b = 0) ∧ (a = 32 → q6 a b = 0) ∧
    (a ≤ 63 → -32 ≤ q6 a b ∧ q6 a b ≤ 31) ∧ (a ≤ 72 → -32 ≤ q6 a b ∧ q6 a b ≤ 40)

/-- FRAME's buses are the sums of the contributions routed to them, each read from the registers as
the tick leaves them, and Boosted has the noise besides (R134, R135, R163, R190). -/
def Obligations.FrameSumsContributions : Prop :=
  ∀ s : State, ∃ t f, exec .frame s = .next t ∧ t.result = .frame f ∧
    f.center = (∑ v : Fin Config.numVoices, if (t.voice v).wave.toNat / 64 = 0 then
      q6 (wavefn (t.voice v).acc (t.voice v).wave).toNat ((t.voice v).vol.setWidth 7) else 0) ∧
    f.right = (∑ v : Fin Config.numVoices, if (t.voice v).wave.toNat / 64 = 1 then
      q6 (wavefn (t.voice v).acc (t.voice v).wave).toNat ((t.voice v).vol.setWidth 7) else 0) ∧
    f.left = (∑ v : Fin Config.numVoices, if (t.voice v).wave.toNat / 64 = 2 then
      q6 (wavefn (t.voice v).acc (t.voice v).wave).toNat ((t.voice v).vol.setWidth 7) else 0) ∧
    f.boosted = (∑ v : Fin Config.numVoices, if (t.voice v).wave.toNat / 64 = 3 then
      q6 (wavefn (t.voice v).acc (t.voice v).wave).toNat ((t.voice v).vol.setWidth 7) else 0) +
      q6 (9 * s.noise.tickSum) (t.noise.nvol.setWidth 7)

/-- Steps of different voices commute, and each commutes with the noise step; a voice's tick reads
only its own registers and `sample_number` (R135, R164). -/
def Obligations.UnitStepsCommute : Prop :=
  (∀ (sn : Nat) (p : State × Frame) (u v : Fin Config.numVoices),
    voiceStep sn (voiceStep sn p u) v = voiceStep sn (voiceStep sn p v) u) ∧
  (∀ (sn : Nat) (p : State × Frame) (v : Fin Config.numVoices),
    noiseStep (voiceStep sn p v) = voiceStep sn (noiseStep p) v) ∧
  (∀ (i j : Instr) (s s' : State) (v : Fin Config.numVoices), tickCommand i = true →
    tickCommand j = true → s.voice v = s'.voice v → s.sampleNumber = s'.sampleNumber →
    ∃ t t', exec i s = .next t ∧ exec j s' = .next t' ∧ t.voice v = t'.voice v)

/-- A slewing voice reaches its target: after any number of ticks that holds as many gate periods as
the rate is away, `real_rate` is `target14` (R130). -/
def Obligations.SlewReachesTarget : Prop :=
  ∀ (s : State) (v : Fin Config.numVoices) (n : Nat),
    2 ^ ((s.voice v).targetRate.toNat / 2 ^ 14 + 2) *
        ((s.voice v).realRate.toNat - (s.voice v).targetRate.toNat % 2 ^ 14 +
          ((s.voice v).targetRate.toNat % 2 ^ 14 - (s.voice v).realRate.toNat)) ≤ n →
    0 < n →
    ∃ t, runInstrs (List.replicate n .frame) s = .next t ∧
      (t.voice v).targetRate = (s.voice v).targetRate ∧
      (t.voice v).realRate.toNat = (s.voice v).targetRate.toNat % 2 ^ 14

/-- A voice at its target with no pending reset advances by r + 1 a tick, and is back at its phase
after exactly the multiples of 65536 / gcd(65536, r + 1) ticks (R136). -/
def Obligations.HeldVoiceIsPeriodic : Prop :=
  ∀ (s : State) (v : Fin Config.numVoices) (n : Nat),
    (s.voice v).realRate.toNat = (s.voice v).targetRate.toNat % 2 ^ 14 →
    (s.voice v).vol.getLsbD 7 = false →
    ∃ t, runInstrs (List.replicate n .frame) s = .next t ∧
      (t.voice v).acc.toNat =
        ((s.voice v).acc.toNat + n * ((s.voice v).realRate.toNat + 1)) % 65536 ∧
      ((t.voice v).acc = (s.voice v).acc ↔
        65536 / Nat.gcd 65536 ((s.voice v).realRate.toNat + 1) ∣ n)

/-! ### The noise unit -/

/-- One LFSR shift, in numbers, and the counter step that makes it, with the tap that bit 7 of
`nwave` selects (R162). -/
def Obligations.LfsrShiftsWithFeedback : Prop :=
  (∀ (periodic : Bool) (l : BitVec 15),
    (lfsrShift periodic l).toNat =
      l.toNat / 2 + 2 ^ 14 * ((l.toNat + l.toNat / (if periodic then 2 ^ 6 else 2)) % 2)) ∧
  ∀ N : Noise,
    N.count.lfsr = if N.ncnt = N.nper then lfsrShift (N.nwave.getLsbD 7) N.lfsr else N.lfsr

/-- A tick of the noise unit in closed form: the counter counts the sub-steps that are not skipped
modulo `nper` + 1, the LFSR shifts at each wrap, a set RST has made it 1 first and is cleared, and
the sum adds the low bit each of the eight sub-steps finds (R160, R161, R28). -/
def Obligations.NoiseTickClosedForm : Prop :=
  ∀ (i : Instr) (s : State), tickCommand i = true → s.noise.ncnt.toNat ≤ s.noise.nper.toNat →
    ∃ t, exec i s = .next t ∧
      t.noise.nper = s.noise.nper ∧ t.noise.nwave = s.noise.nwave ∧
      t.noise.nvol = s.noise.nvol &&& 0x7F ∧
      t.noise.ncnt.toNat =
        (s.noise.ncnt.toNat + activeSubSteps s.noise.nwave) % (s.noise.nper.toNat + 1) ∧
      t.noise.lfsr =
        (lfsrShift (s.noise.nwave.getLsbD 7))^[
          (s.noise.ncnt.toNat + activeSubSteps s.noise.nwave) / (s.noise.nper.toNat + 1)]
          (lfsrAtTick s.noise) ∧
      s.noise.tickSum = ∑ j : Fin 8,
        (((lfsrShift (s.noise.nwave.getLsbD 7))^[
          (s.noise.ncnt.toNat + activeBefore s.noise.nwave j.val) / (s.noise.nper.toNat + 1)]
          (lfsrAtTick s.noise)).getLsbD 0).toNat

/-- The sum of a tick is in 0..8, `sum | (sum << 3)` is 9 times it, and the noise contribution is q6
of that, in -32..40, added to Boosted whatever the registers hold (R163). -/
def Obligations.NoiseContributionOfSum : Prop :=
  (∀ N : Noise, N.tickSum ≤ 8 ∧
    N.contribution = q6 (9 * N.tickSum) (N.nvol.setWidth 7) ∧
    -32 ≤ N.contribution ∧ N.contribution ≤ 40) ∧
  (∀ p : State × Frame, (noiseStep p).1.noise = p.1.noise.tick ∧
    (noiseStep p).2 = { p.2 with boosted := p.2.boosted + p.1.noise.contribution })

/-- From 1, the bit-1 tap visits every non-zero value and returns after 32767 shifts, the bit-6 tap
returns after 93 (R166). -/
def Obligations.LfsrSequenceLengths : Prop :=
  (lfsrShift false)^[32767] 1 = 1 ∧
  (∀ n, 0 < n → n < 32767 → (lfsrShift false)^[n] 1 ≠ 1) ∧
  (∀ l : BitVec 15, l ≠ 0 → ∃ n, n < 32767 ∧ (lfsrShift false)^[n] 1 = l) ∧
  (lfsrShift true)^[93] 1 = 1 ∧ (∀ n, 0 < n → n < 93 → (lfsrShift true)^[n] 1 ≠ 1)

/-- A host that rewrites the period before every tick stops the LFSR when the period is at least the
number of sub-steps that are not skipped, a number in 1..8; with a smaller period the LFSR shifts
once for each `nper` + 1 of them (R268). -/
def Obligations.PeriodRewriteStopsLfsr : Prop :=
  ∀ (s : State) (p : BitVec 8), s.noise.nvol.getLsbD 7 = false →
    (1 ≤ activeSubSteps s.noise.nwave ∧ activeSubSteps s.noise.nwave ≤ 8) ∧
    (activeSubSteps s.noise.nwave ≤ p.toNat → ∀ n : Nat,
      ∃ t, runInstrs (List.replicate n [Instr.wnper p, Instr.frame]).flatten s = .next t ∧
        t.noise.lfsr = s.noise.lfsr) ∧
    (∃ t, runInstrs [.wnper p, .frame] s = .next t ∧
      t.noise.lfsr = (lfsrShift (s.noise.nwave.getLsbD 7))^[
        activeSubSteps s.noise.nwave / (p.toNat + 1)] s.noise.lfsr)

/-! ### Frames, samples and mixes -/

/-- FRAME (R191): encoding, one tick whose frame it returns, `filt` untouched, exceptions, and the
rule's two examples. -/
def Obligations.FrameReturnsTickFrame : Prop :=
  (∀ s : State,
    step (s.present (0x8#4 ++ 0#1 ++ 0#3 ++ 0#16)) = exec .frame s ∧
    (∃ t, exec .frame s = .next t ∧ t.result = .frame (coreTick s).2 ∧
      SameSynthesis (coreTick s).1 t ∧ t.filt = s.filt ∧ t.fault = s.fault ∧
      t.pending = s.pending) ∧
    ∀ (z : BitVec 1) (idx : BitVec 3) (data : BitVec 16), z ≠ 0 ∨ idx ≠ 0 ∨ data ≠ 0 →
      step (s.present (0x8#4 ++ z ++ idx ++ data)) = illegalOutcome s) ∧
  (∃ t, exec .frame State.reset = .next t ∧
    t.result = .frame { center := 0, right := 0, left := 0, boosted := 0 }) ∧
  (∃ t, runInstrs [.reset, .wwave 0 0x08, .wvol 0 64, .frame] State.reset = .next t ∧
    t.result = .frame { center := 31, right := 0, left := 0, boosted := 0 })

/-- SAMPLE (R192): encoding, one tick whose combined mix it returns, a finite value equal to
(C + R + L)/2 + B of the frame that FRAME returns in the same state, `filt` untouched, exceptions. -/
def Obligations.SampleReturnsCombinedMix : Prop :=
  ∀ s : State,
    step (s.present (0x9#4 ++ 0#1 ++ 0#3 ++ 0#16)) = exec .sample s ∧
    (∃ t u f x, exec .sample s = .next t ∧ exec .frame s = .next u ∧ u.result = .frame f ∧
      t.result = .value x ∧ x = combined f ∧ isFinite x = true ∧
      valueOf x = ((f.center + f.right + f.left : Int) : ℚ) / 2 + (f.boosted : ℚ) ∧
      SameSynthesis (coreTick s).1 t ∧ t.filt = s.filt ∧ t.fault = s.fault ∧
      t.pending = s.pending) ∧
    ∀ (z : BitVec 1) (idx : BitVec 3) (data : BitVec 16), z ≠ 0 ∨ idx ≠ 0 ∨ data ≠ 0 →
      step (s.present (0x9#4 ++ z ++ idx ++ data)) = illegalOutcome s

/-- The bounds of every bus and every mix, in every state, the bounds on Boosted reached, and the
exact conversion of each to binary64 (R193). -/
def Obligations.BusesAndMixesAreBounded : Prop :=
  (∀ s : State, ∃ t f, exec .frame s = .next t ∧ t.result = .frame f ∧
    (-224 ≤ f.center ∧ f.center ≤ 217) ∧ (-224 ≤ f.right ∧ f.right ≤ 217) ∧
    (-224 ≤ f.left ∧ f.left ≤ 217) ∧ (-256 ≤ f.boosted ∧ f.boosted ≤ 257) ∧
    (-256 ≤ valueOf (combined f) ∧ valueOf (combined f) ≤ 257) ∧
    (-256 ≤ leftRaw f ∧ leftRaw f ≤ 257) ∧ (-256 ≤ rightRaw f ∧ rightRaw f ≤ 257) ∧
    ∀ n ∈ [f.center, f.right, f.left, f.boosted, leftRaw f, rightRaw f],
      isFinite (toF n) = true ∧ valueOf (toF n) = n) ∧
  (∃ s t, exec .frame s = .next t ∧
    t.result = .frame { center := 0, right := 0, left := 0, boosted := -256 }) ∧
  (∃ s t, exec .frame s = .next t ∧
    t.result = .frame { center := 0, right := 0, left := 0, boosted := 257 })

/-- The combined mix, the integer sum formed first, is exact: (C + R + L)/2 + B (R194). -/
def Obligations.CombinedMixIsExact : Prop :=
  ∀ f : Frame, |f.center + f.right + f.left| < 2 ^ 10 → |f.boosted| < 2 ^ 10 →
    combined f = fadd (fmul (toF (f.center + f.right + f.left)) (fdiv (toF 1) (toF 2)))
      (toF f.boosted) ∧
    isFinite (combined f) = true ∧
      valueOf (combined f) = ((f.center + f.right + f.left : Int) : ℚ) / 2 + (f.boosted : ℚ)

/-- The authentic mix takes half of Center rounded down, and in every tick lies in -256..257 (R195). -/
def Obligations.AuthenticMixHalvesCenterDown : Prop :=
  (∀ f : Frame,
    (2 * leftRaw f ≤ 2 * f.left + 2 * f.boosted + f.center ∧
      2 * f.left + 2 * f.boosted + f.center ≤ 2 * leftRaw f + 1) ∧
    (2 * rightRaw f ≤ 2 * f.right + 2 * f.boosted + f.center ∧
      2 * f.right + 2 * f.boosted + f.center ≤ 2 * rightRaw f + 1)) ∧
  (∀ s : State, (-256 ≤ leftRaw (coreTick s).2 ∧ leftRaw (coreTick s).2 ≤ 257) ∧
    (-256 ≤ rightRaw (coreTick s).2 ∧ rightRaw (coreTick s).2 ≤ 257))

/-- A state with every `wave`, `vol` and noise level 0 is silent on every later tick, while its
accumulators and its LFSR go on (R196). -/
def Obligations.ZeroStateIsSilent : Prop :=
  ∀ (s : State) (n : Nat), (∀ v, (s.voice v).wave = 0 ∧ (s.voice v).vol = 0) →
    s.noise.nvol.toNat % 128 = 0 →
    ∃ t u, runInstrs (List.replicate n .frame) s = .next t ∧ exec .frame t = .next u ∧
      u.result = .frame { center := 0, right := 0, left := 0, boosted := 0 } ∧
      (∀ v, (u.voice v).acc.toNat =
        ((t.voice v).acc.toNat + (u.voice v).realRate.toNat + 1) % 65536) ∧
      u.noise = t.noise.tick

/-- `sample_number` counts the tick commands since it was last zeroed (R33, R246). -/
def Obligations.SampleNumberCountsTicks : Prop :=
  ∀ (is : List Instr) (s : State), Instr.reset ∉ is →
    ∃ t, runInstrs is s = .next t ∧
      t.sampleNumber = s.sampleNumber + (is.filter tickCommand).length

/-- The expansions of the pseudo-instructions are the words they stand for; n of them advance the
core by n ticks, and each leaves its sample on the result port (R79, R217). -/
def Obligations.FillsAreRepeatedTicks : Prop :=
  (∀ p : Pseudo, p.words.map decode = p.expand.map Except.ok) ∧
  ∀ (n : Nat) (s : State),
    (∃ t, runInstrs (Pseudo.expand (.fillMono (n + 1))) s = .next t ∧
      t.sampleNumber = s.sampleNumber + (n + 1) ∧ t.result = .value t.filt.monoY ∧
      runInstrs (Pseudo.expand (.fill 1 (n + 1))) s = .next t) ∧
    (∃ t, runInstrs (Pseudo.expand (.fillStereo (n + 1))) s = .next t ∧
      t.sampleNumber = s.sampleNumber + (n + 1) ∧ t.result = .pair t.filt.stYL t.filt.stYR ∧
      runInstrs (Pseudo.expand (.fill 2 (n + 1))) s = .next t) ∧
    (∃ t l r, runInstrs (Pseudo.expand (.fillHp (n + 1))) s = .next t ∧
      t.sampleNumber = s.sampleNumber + (n + 1) ∧ t.result = .pair l r) ∧
    (∃ t f, runInstrs (Pseudo.expand (.ticks (n + 1))) s = .next t ∧
      t.sampleNumber = s.sampleNumber + (n + 1) ∧ t.result = .frame f ∧ t.filt = s.filt)

/-! ### Binary64 and the filter stage -/

/-- `toF` is exact on every integer below 2^53 in magnitude (R10). -/
def Obligations.IntegersConvertExactly : Prop :=
  ∀ n : Int, |n| < 2 ^ 53 → isFinite (toF n) = true ∧ valueOf (toF n) = n

/-- The four operations on finite operands are the exact result rounded to nearest, ties to even (R10).
THE MODEL'S CHOICE (log 9, PRESUMED): a result at or above `overflowBound` in magnitude is infinity
with its sign, as in the standard that R10 names; R10 states no overflow. -/
def Obligations.OperationsRoundToNearestEven : Prop :=
  ∀ x y : F64, isFinite x = true → isFinite y = true →
    RoundsTo (valueOf x + valueOf y) (fadd x y) ∧ RoundsTo (valueOf x - valueOf y) (fsub x y) ∧
      RoundsTo (valueOf x * valueOf y) (fmul x y) ∧
      (valueOf y ≠ 0 → RoundsTo (valueOf x / valueOf y) (fdiv x y))

/-- The scaling by 1/256 is exact for every integer the stage scales (R212). -/
def Obligations.ScalingIsExact : Prop :=
  ∀ n : Int, |n| < 2 ^ 10 → isFinite (scaledInt n) = true ∧ valueOf (scaledInt n) = (n : ℚ) / 256

/-- The low-pass step in the source's order, and its gain of 1: a history equal to its input, and not
-0.0, stays (R211). -/
def Obligations.LowPassKeepsConstantInput : Prop :=
  (∀ y x k : F64, lp y x k = fadd x (fmul (fsub y x) k)) ∧
  ∀ x k : F64, isFinite x = true → x ≠ negZeroF → isFinite k = true → lp x x k = x

/-- The pan coefficient of two coefficients in the open unit interval is in the closed one (R210,
R219). -/
def Obligations.PanCoefficientInUnit : Prop :=
  ∀ kd ep : F64, InOpenUnit kd → InOpenUnit ep → InUnit (panCoeffOf kd ep)

/-- MONO (R213): encoding, one tick, the mono history filtered and returned, the other histories
kept, exceptions. -/
def Obligations.MonoFiltersCombinedMix : Prop :=
  ∀ s : State,
    step (s.present (0xA#4 ++ 0#1 ++ 0#3 ++ 0#16)) = exec .mono s ∧
    (∃ t y, exec .mono s = .next t ∧
      y = fadd (fdiv (combined (coreTick s).2) (toF 256))
        (fmul (fsub s.filt.monoY (fdiv (combined (coreTick s).2) (toF 256))) kDac) ∧
      t.filt = { s.filt with monoY := y } ∧ t.result = .value y ∧
      SameSynthesis (coreTick s).1 t ∧ t.fault = s.fault ∧ t.pending = s.pending) ∧
    ∀ (z : BitVec 1) (idx : BitVec 3) (data : BitVec 16), z ≠ 0 ∨ idx ≠ 0 ∨ data ≠ 0 →
      step (s.present (0xA#4 ++ z ++ idx ++ data)) = illegalOutcome s

/-- STEREO (R214): encoding, one tick, the two stereo histories filtered and returned as a pair, the
other histories kept, exceptions. -/
def Obligations.StereoFiltersBothChannels : Prop :=
  ∀ s : State,
    step (s.present (0xB#4 ++ 0#1 ++ 0#3 ++ 0#16)) = exec .stereo s ∧
    (∃ t yL yR, exec .stereo s = .next t ∧
      yL = lp s.filt.stYL (fdiv (toF (leftRaw (coreTick s).2)) (toF 256)) kDac ∧
      yR = lp s.filt.stYR (fdiv (toF (rightRaw (coreTick s).2)) (toF 256)) kDac ∧
      t.filt = { s.filt with stYL := yL, stYR := yR } ∧ t.result = .pair yL yR ∧
      SameSynthesis (coreTick s).1 t ∧ t.fault = s.fault ∧ t.pending = s.pending) ∧
    ∀ (z : BitVec 1) (idx : BitVec 3) (data : BitVec 16), z ≠ 0 ∨ idx ≠ 0 ∨ data ≠ 0 →
      step (s.present (0xB#4 ++ z ++ idx ++ data)) = illegalOutcome s

/-- HPHONE (R215): encoding, one tick, the direct and pan histories filtered, the slot at the cursor
added to the output before the pan history overwrites it, every other slot and the other modes'
histories kept, exceptions. -/
def Obligations.HphoneAddsDelayedPan : Prop :=
  ∀ s : State,
    step (s.present (0xC#4 ++ 0#1 ++ 0#3 ++ 0#16)) = exec .hphone s ∧
    (∃ t, exec .hphone s = .next t ∧
      t.filt.hpYL = lp s.filt.hpYL (fdiv (toF (leftRaw (coreTick s).2)) (toF 256)) kDac ∧
      t.filt.hpYR = lp s.filt.hpYR (fdiv (toF (rightRaw (coreTick s).2)) (toF 256)) kDac ∧
      t.filt.hpPL = lp s.filt.hpPL (fdiv (toF (coreTick s).2.right) (toF 256)) kPan ∧
      t.filt.hpPR = lp s.filt.hpPR (fdiv (toF (coreTick s).2.left) (toF 256)) kPan ∧
      t.result = .pair (fadd t.filt.hpYL s.filt.hpDL[s.filt.hpCur])
        (fadd t.filt.hpYR s.filt.hpDR[s.filt.hpCur]) ∧
      t.filt.hpDL[s.filt.hpCur] = t.filt.hpPL ∧ t.filt.hpDR[s.filt.hpCur] = t.filt.hpPR ∧
      (∀ j : Fin Config.delayLen, j ≠ s.filt.hpCur →
        t.filt.hpDL[j] = s.filt.hpDL[j] ∧ t.filt.hpDR[j] = s.filt.hpDR[j]) ∧
      t.filt.hpCur.val = (s.filt.hpCur.val + 1) % 23 ∧
      t.filt.monoY = s.filt.monoY ∧ t.filt.stYL = s.filt.stYL ∧ t.filt.stYR = s.filt.stYR ∧
      SameSynthesis (coreTick s).1 t ∧ t.fault = s.fault ∧ t.pending = s.pending) ∧
    ∀ (z : BitVec 1) (idx : BitVec 3) (data : BitVec 16), z ≠ 0 ∨ idx ≠ 0 ∨ data ≠ 0 →
      step (s.present (0xC#4 ++ z ++ idx ++ data)) = illegalOutcome s

/-- SINK (R216): MONO for one channel, STEREO for two, ContractViolation without a tick for any other
count, the count taken unmasked; a non-zero `z` or `idx` is IllegalCommand (R242). -/
def Obligations.SinkFollowsChannelCount : Prop :=
  ∀ s : State,
    (∃ t, exec .mono s = .next t ∧ exec (.sink 1) s = .next t ∧
      t.sampleNumber = s.sampleNumber + 1) ∧
    (∃ t, exec .stereo s = .next t ∧ exec (.sink 2) s = .next t ∧
      t.sampleNumber = s.sampleNumber + 1) ∧
    ∀ ch : BitVec 16,
      step (s.present (0xD#4 ++ 0#1 ++ 0#3 ++ ch)) = exec (.sink ch) s ∧
      (ch ≠ 1 → ch ≠ 2 → exec (.sink ch) s = contractOutcome s) ∧
      ∀ (z : BitVec 1) (idx : BitVec 3), z ≠ 0 ∨ idx ≠ 0 →
        step (s.present (0xD#4 ++ z ++ idx ++ ch)) = illegalOutcome s

/-- The pan sample of HPHONE command n is added to the output of command n + 23, and commands 0 to 22
add what the slots held at the start (R215). -/
def Obligations.HeadphoneDelayIs23Commands : Prop :=
  ∀ (s : State) (n : Nat),
    (∃ a b, runInstrs (List.replicate (n + 1) .hphone) s = .next a ∧
      runInstrs (List.replicate (n + 24) .hphone) s = .next b ∧
      b.result = .pair (fadd b.filt.hpYL a.filt.hpPL) (fadd b.filt.hpYR a.filt.hpPR)) ∧
    (n < 23 → ∃ a, runInstrs (List.replicate (n + 1) .hphone) s = .next a ∧
      a.result = .pair (fadd a.filt.hpYL s.filt.hpDL[slotAfter s.filt.hpCur n])
        (fadd a.filt.hpYR s.filt.hpDR[slotAfter s.filt.hpCur n]))

/-- The three modes keep separate histories: no command writes another mode's, no mode's output
depends on another mode's, and every history starts at +0.0 (R218). -/
def Obligations.ModesKeepSeparateHistories : Prop :=
  (∀ (i : Instr) (s : State), ∃ t, exec i s = .next t ∧
    (i ≠ .mono → i ≠ .sink 1 → t.filt.monoY = s.filt.monoY) ∧
    (i ≠ .stereo → i ≠ .sink 2 → t.filt.stYL = s.filt.stYL ∧ t.filt.stYR = s.filt.stYR) ∧
    (i ≠ .hphone → t.filt.hpYL = s.filt.hpYL ∧ t.filt.hpYR = s.filt.hpYR ∧
      t.filt.hpPL = s.filt.hpPL ∧ t.filt.hpPR = s.filt.hpPR ∧ t.filt.hpDL = s.filt.hpDL ∧
      t.filt.hpDR = s.filt.hpDR ∧ t.filt.hpCur = s.filt.hpCur)) ∧
  (∀ s s' : State, SameSynthesis s s' → s.filt.monoY = s'.filt.monoY →
    ∃ t t', exec .mono s = .next t ∧ exec .mono s' = .next t' ∧ t.result = t'.result ∧
      t.filt.monoY = t'.filt.monoY) ∧
  (∀ s s' : State, SameSynthesis s s' → s.filt.stYL = s'.filt.stYL →
    s.filt.stYR = s'.filt.stYR →
    ∃ t t', exec .stereo s = .next t ∧ exec .stereo s' = .next t' ∧ t.result = t'.result ∧
      t.filt.stYL = t'.filt.stYL ∧ t.filt.stYR = t'.filt.stYR) ∧
  (∀ s s' : State, SameSynthesis s s' →
    s'.filt = { s.filt with
      monoY := s'.filt.monoY, stYL := s'.filt.stYL, stYR := s'.filt.stYR } →
    ∃ t t', exec .hphone s = .next t ∧ exec .hphone s' = .next t' ∧ t.result = t'.result ∧
      t'.filt = { t.filt with
        monoY := t'.filt.monoY, stYL := t'.filt.stYL, stYR := t'.filt.stYR }) ∧
  (State.reset.filt.monoY = zeroF ∧ State.reset.filt.stYL = zeroF ∧
    State.reset.filt.stYR = zeroF ∧ State.reset.filt.hpYL = zeroF ∧
    State.reset.filt.hpYR = zeroF ∧ State.reset.filt.hpPL = zeroF ∧
    State.reset.filt.hpPR = zeroF ∧
    ∀ j : Fin Config.delayLen,
      State.reset.filt.hpDL[j] = zeroF ∧ State.reset.filt.hpDR[j] = zeroF)

/-- Whatever the two coefficients in the unit interval, every filtered tick keeps every history and
every delay slot finite, not -0.0 and in -1..257/256, and HPHONE's outputs in twice that (R219). -/
def Obligations.FilterHistoriesStayBounded : Prop :=
  ∀ (k kp : F64) (s : State), InUnit k → InUnit kp → s.filt.Bounded →
    (monoTick k s).filt.Bounded ∧ (stereoTick k s).filt.Bounded ∧
      (hphoneTick k kp s).filt.Bounded ∧
      ∃ l r, (hphoneTick k kp s).result = .pair l r ∧ OutputOk l ∧ OutputOk r

/-- The histories after construction are in that range. -/
def Obligations.FilterHistoriesBoundedAtReset : Prop := State.reset.filt.Bounded

/-! ### Reset, invariants and faults -/

/-- The state after construction (R43, R260). -/
def Obligations.ConstructionState : Prop :=
  (∀ v, State.reset.voice v = { targetRate := 0, realRate := 0, acc := 0, wave := 0, vol := 0 }) ∧
    State.reset.noise = { nper := 0, nvol := 0, nwave := 0, lfsr := 1, ncnt := 0 } ∧
    State.reset.sampleNumber = 0 ∧ State.reset.fault = false ∧
    State.reset.filt =
      { monoY := .finite false 0 0, stYL := .finite false 0 0, stYR := .finite false 0 0
        hpYL := .finite false 0 0, hpYR := .finite false 0 0
        hpPL := .finite false 0 0, hpPR := .finite false 0 0
        hpDL := Vector.replicate 23 (.finite false 0 0)
        hpDR := Vector.replicate 23 (.finite false 0 0)
        hpCur := 0 }

/-- The construction state satisfies the invariant of R42. -/
def Obligations.InvariantHoldsAtReset : Prop := State.reset.Inv

/-- Every step from a state that satisfies the invariant of R42 answers a next state that does: the
LFSR is never 0, the counter never passes the period, `real_rate` fits 14 bits, the cursor is in
0..22 (R42, R262). -/
def Obligations.InvariantKeptByEveryStep : Prop :=
  ∀ s : State, s.Inv → ∃ t, step s = .next t ∧ t.Inv

/-- The core never stops, and nothing clears `fault`: a run of any length from any state answers a
next state, with `fault` set if it was (R240). -/
def Obligations.CoreNeverStopsFaultIsSticky : Prop :=
  ∀ (n : Nat) (s : State), ∃ t, Host.Core.run Sys2Proof.core n s = .next t ∧
    (s.fault = true → t.fault = true)

/-- A command either completes, keeping `fault` and returning no fault, or ends in a fault that writes
nothing but `fault` and the result port: IllegalCommand exactly on the words the decoder refuses,
ContractViolation exactly on a SINK word whose count is not 1 or 2 (R240, R241, R242). -/
def Obligations.FaultWritesNothingElse : Prop :=
  ∀ (s : State) (w : CommandWord),
    ((∃ r, decode w = .error r) ∧ step (s.present w) = illegalOutcome s) ∨
    ((∃ ch, decode w = .ok (.sink ch) ∧ ch ≠ 1 ∧ ch ≠ 2) ∧
      step (s.present w) = contractOutcome s) ∨
    (∃ i t, decode w = .ok i ∧ (∀ ch, i = .sink ch → ch = 1 ∨ ch = 2) ∧
      step (s.present w) = .next t ∧ exec i s = .next t ∧ t.fault = s.fault ∧
      ∀ r, t.result ≠ .fault r)

/-- Who writes each field (R40): under every command, each field is as before unless the command is
one of those the table gives the field; a tick writes of `wave` only the flip of INVA under TOGC, and
of `vol` and `nvol` only the consumed RST. -/
def Obligations.FieldsHaveTheirWritersOnly : Prop :=
  ∀ (i : Instr) (s : State), ∃ t, exec i s = .next t ∧
    (∀ k : Fin Config.numVoices,
      (i ≠ .reset → (∀ v imm16, i = .wrate v imm16 → v.toNat ≠ k.val) →
        (t.voice k).targetRate = (s.voice k).targetRate) ∧
      (i ≠ .reset → tickCommand i = false →
        (t.voice k).realRate = (s.voice k).realRate ∧ (t.voice k).acc = (s.voice k).acc) ∧
      (i ≠ .reset → (∀ v imm8, i = .wwave v imm8 → v.toNat ≠ k.val) →
        (t.voice k).wave = (s.voice k).wave ∨
          (tickCommand i = true ∧ (s.voice k).wave.getLsbD 4 = true ∧
            (t.voice k).wave = (s.voice k).wave ^^^ 0x08)) ∧
      (i ≠ .reset → (∀ v imm8, i = .wvol v imm8 → v.toNat ≠ k.val) →
        (t.voice k).vol =
          if tickCommand i then (s.voice k).vol &&& 0x7F else (s.voice k).vol)) ∧
    (i ≠ .reset → (∀ imm8, i ≠ .wnper imm8) → t.noise.nper = s.noise.nper) ∧
    (i ≠ .reset → (∀ imm8, i ≠ .wnper imm8) → tickCommand i = false →
      t.noise.ncnt = s.noise.ncnt) ∧
    (i ≠ .reset → (∀ imm8, i ≠ .wnvol imm8) →
      t.noise.nvol = if tickCommand i then s.noise.nvol &&& 0x7F else s.noise.nvol) ∧
    (i ≠ .reset → (∀ imm8, i ≠ .wnwave imm8) → t.noise.nwave = s.noise.nwave) ∧
    (i ≠ .reset → tickCommand i = false → t.noise.lfsr = s.noise.lfsr) ∧
    (tickCommand i = true → t.sampleNumber = s.sampleNumber + 1) ∧
    (i = .reset → t.sampleNumber = 0) ∧
    (i ≠ .reset → tickCommand i = false → t.sampleNumber = s.sampleNumber) ∧
    (i ≠ .mono → i ≠ .stereo → i ≠ .hphone → i ≠ .sink 1 → i ≠ .sink 2 → t.filt = s.filt) ∧
    (t.fault = s.fault ∨ (t.fault = true ∧ ∃ r, t.result = .fault r))

/-- The synthesis state, and the raw output, of any run of commands depends on the synthesis state it
starts from only: not on the filter stage, on `fault` or on earlier results (R5, R218). -/
def Obligations.SynthesisIgnoresFilterAndFault : Prop :=
  ∀ (is : List Instr) (s s' : State), SameSynthesis s s' →
    ∃ t t', runInstrs is s = .next t ∧ runInstrs is s' = .next t' ∧ SameSynthesis t t' ∧
      (∃ u u', exec .frame t = .next u ∧ exec .frame t' = .next u' ∧ u.result = u'.result) ∧
      (∃ u u', exec .sample t = .next u ∧ exec .sample t' = .next u' ∧ u.result = u'.result)
end

