-- ==== Sys2Proof/Laws/Encoding.lean ====
section
/-! SUPPORT. The fields of a packed command word (30_encoding.md R71). -/

namespace Sys2Proof

theorem packWord_toNat (op : BitVec 4) (idx : BitVec 3) (data : BitVec 16) :
    (packWord op idx data).toNat = op.toNat * 2 ^ 20 + idx.toNat * 2 ^ 16 + data.toNat := by
  have h2 := idx.isLt
  have h3 := data.isLt
  simp only [packWord, BitVec.toNat_append, Nat.shiftLeft_eq, BitVec.toNat_ofNat]
  rw [← Nat.shiftLeft_eq _ 16, ← Nat.shiftLeft_add_eq_or_of_lt (by omega), Nat.shiftLeft_eq,
    ← Nat.shiftLeft_eq _ 3, ← Nat.shiftLeft_add_eq_or_of_lt (by omega), Nat.shiftLeft_eq,
    ← Nat.shiftLeft_eq _ 1, ← Nat.shiftLeft_add_eq_or_of_lt (by decide), Nat.shiftLeft_eq]
  omega

@[simp] theorem opField_packWord (op : BitVec 4) (idx : BitVec 3) (data : BitVec 16) :
    opField (packWord op idx data) = op := by
  apply BitVec.eq_of_toNat_eq
  have h1 := op.isLt
  have h2 := idx.isLt
  have h3 := data.isLt
  simp only [opField, BitVec.extractLsb'_toNat, packWord_toNat, Nat.shiftRight_eq_div_pow]
  omega

@[simp] theorem idxField_packWord (op : BitVec 4) (idx : BitVec 3) (data : BitVec 16) :
    idxField (packWord op idx data) = idx := by
  apply BitVec.eq_of_toNat_eq
  have h1 := op.isLt
  have h2 := idx.isLt
  have h3 := data.isLt
  simp only [idxField, BitVec.extractLsb'_toNat, packWord_toNat, Nat.shiftRight_eq_div_pow]
  omega

@[simp] theorem dataField_packWord (op : BitVec 4) (idx : BitVec 3) (data : BitVec 16) :
    dataField (packWord op idx data) = data := by
  apply BitVec.eq_of_toNat_eq
  have h1 := op.isLt
  have h2 := idx.isLt
  have h3 := data.isLt
  simp only [dataField, BitVec.extractLsb'_toNat, packWord_toNat, Nat.shiftRight_eq_div_pow]
  omega

@[simp] theorem zField_packWord (op : BitVec 4) (idx : BitVec 3) (data : BitVec 16) :
    zField (packWord op idx data) = false := by
  have h2 := idx.isLt
  have h3 := data.isLt
  have h : (packWord op idx data).toNat / 2 ^ 19 % 2 = 0 := by
    rw [packWord_toNat]
    omega
  rw [zField, BitVec.getLsbD, Nat.testBit_eq_decide_div_mod_eq, h]
  rfl

end Sys2Proof
end

