-- ==== Sys2Proof/Laws/Float.lean ====
section
/-! SUPPORT. What the rounding of Machine/Float.lean does, at the level of natural numbers of units:
the integer rounding is nearest even, and a rounded magnitude is that integer times its unit in the
last place. -/

namespace Sys2Proof.Machine

/-! ### Rounding to an integer -/

theorem roundEven_cases {n d : Nat} :
    (2 * (n % d) < d ∧ roundEven n d = n / d) ∨
      (d < 2 * (n % d) ∧ roundEven n d = n / d + 1) ∨
      (2 * (n % d) = d ∧ roundEven n d = n / d + n / d % 2) := by
  unfold roundEven
  split
  · exact .inl ⟨by assumption, rfl⟩
  · split
    · exact .inr (.inl ⟨by assumption, rfl⟩)
    · exact .inr (.inr ⟨by omega, rfl⟩)

/-- The distance to the rounded integer is at most one half. -/
theorem roundEven_dist {n d : Nat} (hd : 0 < d) :
    2 * n ≤ 2 * (d * roundEven n d) + d ∧ 2 * (d * roundEven n d) ≤ 2 * n + d := by
  have h := Nat.div_add_mod n d
  have hlt := Nat.mod_lt n hd
  obtain ⟨hr, e⟩ | ⟨hr, e⟩ | ⟨hr, e⟩ := roundEven_cases (n := n) (d := d)
  · rw [e]
    constructor <;> omega
  · rw [e, Nat.mul_add, Nat.mul_one]
    constructor <;> omega
  · have hm : n / d % 2 = 0 ∨ n / d % 2 = 1 := by omega
    obtain hm | hm := hm <;> rw [e, hm, Nat.mul_add]
    · constructor <;> omega
    · constructor <;> omega

/-- At distance exactly one half, the rounded integer is even. -/
theorem roundEven_even_of_tie {n d : Nat} (h : 2 * (n % d) = d) :
    roundEven n d % 2 = 0 := by
  obtain ⟨hr, _⟩ | ⟨hr, _⟩ | ⟨_, e⟩ := roundEven_cases (n := n) (d := d)
  · omega
  · omega
  · omega

theorem roundEven_mul {m d : Nat} (hd : 0 < d) : roundEven (d * m) d = m := by
  obtain ⟨_, e⟩ | ⟨hr, _⟩ | ⟨hr, _⟩ := roundEven_cases (n := d * m) (d := d)
  · rw [e, Nat.mul_div_cancel_left m hd]
  · rw [Nat.mul_mod_right] at hr
    omega
  · rw [Nat.mul_mod_right] at hr
    omega

theorem div_le_roundEven (n d : Nat) : n / d ≤ roundEven n d := by
  unfold roundEven
  split
  · exact le_refl _
  · split <;> omega

theorem roundEven_le_succ_div {n d : Nat} : roundEven n d ≤ n / d + 1 := by
  unfold roundEven
  split
  · omega
  · split <;> omega

/-! ### The binade -/

/-- The integer part in units of the binade's last place fits 53 bits. -/
theorem div_ulpShift_lt {n d : Nat} : n / (d * 2 ^ ulpShift n d) < 2 ^ 53 := by
  rw [← Nat.div_div_eq_div_mul]
  apply Nat.div_lt_of_lt_mul
  rw [← Nat.pow_add]
  rcases Nat.eq_zero_or_pos (n / d) with h0 | hpos
  · rw [h0]
    positivity
  · calc n / d < 2 ^ (Nat.log2 (n / d) + 1) := Nat.lt_log2_self
      _ ≤ 2 ^ (ulpShift n d + 53) := by
        apply Nat.pow_le_pow_right (by decide)
        unfold ulpShift
        omega

/-- Above the lowest binade, the integer part has all of its 53 bits. -/
theorem le_div_ulpShift {n d : Nat} (h : ulpShift n d ≠ 0) :
    2 ^ 52 ≤ n / (d * 2 ^ ulpShift n d) := by
  have hk : Nat.log2 (n / d) = 52 + ulpShift n d := by
    unfold ulpShift at h ⊢
    omega
  have hne : n / d ≠ 0 := by
    intro h0
    rw [h0, show Nat.log2 0 = 0 by decide] at hk
    omega
  rw [← Nat.div_div_eq_div_mul, Nat.le_div_iff_mul_le (Nat.two_pow_pos _), ← Nat.pow_add, ← hk]
  exact Nat.log2_self_le hne

/-- The rounded significand is at most 2^53. -/
theorem significand_le (n d : Nat) : roundEven n (d * 2 ^ ulpShift n d) ≤ 2 ^ 53 := by
  have h1 := roundEven_le_succ_div (n := n) (d := d * 2 ^ ulpShift n d)
  have h2 := div_ulpShift_lt (n := n) (d := d)
  omega

theorem le_significand {n d : Nat} (h : ulpShift n d ≠ 0) :
    2 ^ 52 ≤ roundEven n (d * 2 ^ ulpShift n d) :=
  le_trans (le_div_ulpShift h) (div_le_roundEven _ _)

/-! ### From a rank back to units -/

/-- The units of the finite value of a rank: binade 0 holds the ranks below 2^53, and each later 2^52
ranks have a last place twice as large. -/
theorem magUnits_of_rank {k r : Nat} (hr : r ≤ 2 ^ 53) (hk : k ≠ 0 → 2 ^ 52 ≤ r)
    (h : (2 ^ 52 * k + r) / 2 ^ 52 < 2047) :
    magUnits ⟨(2 ^ 52 * k + r) / 2 ^ 52, h⟩ (BitVec.ofNat 52 (2 ^ 52 * k + r)) = r * 2 ^ k := by
  have hdiv : (2 ^ 52 * k + r) / 2 ^ 52 = k + r / 2 ^ 52 := by
    rw [Nat.mul_add_div (by decide)]
  have hmod : (2 ^ 52 * k + r) % 2 ^ 52 = r % 2 ^ 52 := by
    rw [Nat.mul_add_mod]
  unfold magUnits
  simp only [BitVec.toNat_ofNat, hdiv, hmod]
  by_cases hlow : r < 2 ^ 52
  · have hk0 : k = 0 := by
      by_contra hne
      have := hk hne
      omega
    subst hk0
    have h0 : r / 2 ^ 52 = 0 := Nat.div_eq_of_lt hlow
    rw [h0, if_pos rfl, Nat.mod_eq_of_lt hlow, Nat.pow_zero, Nat.mul_one]
  · by_cases htop : r = 2 ^ 53
    · subst htop
      rw [if_neg (by norm_num), show k + 2 ^ 53 / 2 ^ 52 - 1 = k + 1 by norm_num]
      rw [show (2 ^ 53 : Nat) % 2 ^ 52 = 0 by decide, Nat.pow_succ]
      ring
    · have h1 : r / 2 ^ 52 = 1 := by omega
      rw [h1, if_neg (by omega), Nat.add_sub_cancel]
      have h2 : 2 ^ 52 + r % 2 ^ 52 = r := by omega
      rw [h2]

/-- All a rounded magnitude can be: past the largest finite value, infinity; else a finite datum with
the given sign whose magnitude is the rounded significand times its last place. -/
theorem roundMag_cases (neg : Bool) (n d : Nat) :
    (2047 * 2 ^ 52 ≤ roundRank n d ∧ roundMag neg n d = .inf neg) ∨
      (roundRank n d < 2047 * 2 ^ 52 ∧ ∃ e f, roundMag neg n d = .finite neg e f ∧
        magUnits e f = roundEven n (d * 2 ^ ulpShift n d) * 2 ^ ulpShift n d ∧
        (f.getLsbD 0 = decide (roundEven n (d * 2 ^ ulpShift n d) % 2 = 1))) := by
  unfold roundMag ofRank
  by_cases h : roundRank n d / 2 ^ 52 < 2047
  · refine .inr ⟨by omega, ⟨roundRank n d / 2 ^ 52, h⟩, BitVec.ofNat 52 (roundRank n d), ?_, ?_, ?_⟩
    · rw [dif_pos h]
    · exact magUnits_of_rank (significand_le n d) le_significand h
    · rw [BitVec.getLsbD_ofNat]
      simp only [show (0 : Nat) < 52 by decide, decide_true, Bool.true_and, Nat.testBit_zero]
      unfold roundRank
      congr 1
      rw [Nat.add_mod, show (2 ^ 52 * ulpShift n d) % 2 = 0 by omega]
      simp
  · refine .inl ⟨by omega, ?_⟩
    rw [dif_neg h]

/-- A rounded zero is a zero with the given sign. -/
theorem roundMag_zero (neg : Bool) (d : Nat) : roundMag neg 0 d = .finite neg 0 0 := by
  have h : roundRank 0 d = 0 := by
    simp [roundRank, ulpShift, roundEven, Nat.zero_div]
  rw [roundMag, h]
  rfl

/-- The last place of a multiple of 2^j below 2^(53 + j) is at most 2^j. -/
theorem ulpShift_le {m j d : Nat} (hd : 0 < d) (hm : m < 2 ^ 53) :
    ulpShift (d * (m * 2 ^ j)) d ≤ j := by
  unfold ulpShift
  rw [Nat.mul_div_cancel_left _ hd]
  rcases Nat.eq_zero_or_pos m with rfl | hpos
  · simp
  · have hne : m * 2 ^ j ≠ 0 := Nat.mul_ne_zero (by omega) (Nat.two_pow_pos j).ne'
    have hlt : m * 2 ^ j < 2 ^ (53 + j) := by
      rw [Nat.pow_add]
      exact Nat.mul_lt_mul_of_pos_right hm (Nat.two_pow_pos j)
    have := (Nat.log2_lt hne).mpr hlt
    omega

/-- EXACTNESS: an integer below 2^53 times a power of two is rounded to itself. -/
theorem roundMag_exact (neg : Bool) {m j d : Nat} (hd : 0 < d) (hm : m < 2 ^ 53) (hj : j ≤ 2045) :
    ∃ e f, roundMag neg (d * (m * 2 ^ j)) d = .finite neg e f ∧ magUnits e f = m * 2 ^ j := by
  have hk := ulpShift_le (j := j) hd hm
  generalize hkk : ulpShift (d * (m * 2 ^ j)) d = k at hk
  have hpos : 0 < d * 2 ^ k := Nat.mul_pos hd (Nat.two_pow_pos k)
  have hsplit : d * (m * 2 ^ j) = d * 2 ^ k * (m * 2 ^ (j - k)) := by
    rw [← Nat.pow_sub_mul_pow 2 hk]
    ring
  have hround : roundEven (d * (m * 2 ^ j)) (d * 2 ^ k) = m * 2 ^ (j - k) := by
    rw [hsplit, roundEven_mul hpos]
  have hval : m * 2 ^ (j - k) * 2 ^ k = m * 2 ^ j := by
    rw [Nat.mul_assoc, Nat.pow_sub_mul_pow 2 hk]
  have hsig : m * 2 ^ (j - k) < 2 ^ 53 := by
    have := div_ulpShift_lt (n := d * (m * 2 ^ j)) (d := d)
    rw [hkk] at this
    rw [hsplit, Nat.mul_div_cancel_left _ hpos] at this
    exact this
  rcases roundMag_cases neg (d * (m * 2 ^ j)) d with ⟨hov, _⟩ | ⟨_, e, f, he, hu, _⟩
  · exfalso
    rw [roundRank, hkk, hround] at hov
    have : k ≤ 2045 := le_trans hk hj
    omega
  · refine ⟨e, f, he, ?_⟩
    rw [hu, hkk, hround, hval]

end Sys2Proof.Machine
end

