-- ==== Sys2Proof/Laws/State.lean ====
section
/-! SUPPORT. One lemma per field per update of the state and of its parts, each true by rfl. -/

namespace Sys2Proof.Machine

/-! ### setVoice -/

@[simp] theorem State.setVoice_voices (s : State) (v : Fin Config.numVoices) (V : Voice) :
    (s.setVoice v V).voices = s.voices.set v V := rfl
@[simp] theorem State.setVoice_noise (s : State) (v : Fin Config.numVoices) (V : Voice) :
    (s.setVoice v V).noise = s.noise := rfl
@[simp] theorem State.setVoice_sampleNumber (s : State) (v : Fin Config.numVoices) (V : Voice) :
    (s.setVoice v V).sampleNumber = s.sampleNumber := rfl
@[simp] theorem State.setVoice_filt (s : State) (v : Fin Config.numVoices) (V : Voice) :
    (s.setVoice v V).filt = s.filt := rfl
@[simp] theorem State.setVoice_fault (s : State) (v : Fin Config.numVoices) (V : Voice) :
    (s.setVoice v V).fault = s.fault := rfl
@[simp] theorem State.setVoice_result (s : State) (v : Fin Config.numVoices) (V : Voice) :
    (s.setVoice v V).result = s.result := rfl
@[simp] theorem State.setVoice_pending (s : State) (v : Fin Config.numVoices) (V : Voice) :
    (s.setVoice v V).pending = s.pending := rfl

/-! ### setNoise -/

@[simp] theorem State.setNoise_voices (s : State) (N : Noise) :
    (s.setNoise N).voices = s.voices := rfl
@[simp] theorem State.setNoise_noise (s : State) (N : Noise) : (s.setNoise N).noise = N := rfl
@[simp] theorem State.setNoise_sampleNumber (s : State) (N : Noise) :
    (s.setNoise N).sampleNumber = s.sampleNumber := rfl
@[simp] theorem State.setNoise_filt (s : State) (N : Noise) : (s.setNoise N).filt = s.filt := rfl
@[simp] theorem State.setNoise_fault (s : State) (N : Noise) : (s.setNoise N).fault = s.fault := rfl
@[simp] theorem State.setNoise_result (s : State) (N : Noise) :
    (s.setNoise N).result = s.result := rfl
@[simp] theorem State.setNoise_pending (s : State) (N : Noise) :
    (s.setNoise N).pending = s.pending := rfl

/-! ### setFilt -/

@[simp] theorem State.setFilt_voices (s : State) (f : FilterState) :
    (s.setFilt f).voices = s.voices := rfl
@[simp] theorem State.setFilt_noise (s : State) (f : FilterState) :
    (s.setFilt f).noise = s.noise := rfl
@[simp] theorem State.setFilt_sampleNumber (s : State) (f : FilterState) :
    (s.setFilt f).sampleNumber = s.sampleNumber := rfl
@[simp] theorem State.setFilt_filt (s : State) (f : FilterState) : (s.setFilt f).filt = f := rfl
@[simp] theorem State.setFilt_fault (s : State) (f : FilterState) :
    (s.setFilt f).fault = s.fault := rfl
@[simp] theorem State.setFilt_result (s : State) (f : FilterState) :
    (s.setFilt f).result = s.result := rfl
@[simp] theorem State.setFilt_pending (s : State) (f : FilterState) :
    (s.setFilt f).pending = s.pending := rfl

/-! ### emit -/

@[simp] theorem State.emit_voices (s : State) (r : Result) : (s.emit r).voices = s.voices := rfl
@[simp] theorem State.emit_noise (s : State) (r : Result) : (s.emit r).noise = s.noise := rfl
@[simp] theorem State.emit_sampleNumber (s : State) (r : Result) :
    (s.emit r).sampleNumber = s.sampleNumber := rfl
@[simp] theorem State.emit_filt (s : State) (r : Result) : (s.emit r).filt = s.filt := rfl
@[simp] theorem State.emit_fault (s : State) (r : Result) : (s.emit r).fault = s.fault := rfl
@[simp] theorem State.emit_result (s : State) (r : Result) : (s.emit r).result = r := rfl
@[simp] theorem State.emit_pending (s : State) (r : Result) : (s.emit r).pending = s.pending := rfl

/-! ### raise -/

@[simp] theorem State.raise_voices (s : State) (reason : Fault) :
    (s.raise reason).voices = s.voices := rfl
@[simp] theorem State.raise_noise (s : State) (reason : Fault) :
    (s.raise reason).noise = s.noise := rfl
@[simp] theorem State.raise_sampleNumber (s : State) (reason : Fault) :
    (s.raise reason).sampleNumber = s.sampleNumber := rfl
@[simp] theorem State.raise_filt (s : State) (reason : Fault) :
    (s.raise reason).filt = s.filt := rfl
@[simp] theorem State.raise_fault (s : State) (reason : Fault) :
    (s.raise reason).fault = true := rfl
@[simp] theorem State.raise_result (s : State) (reason : Fault) :
    (s.raise reason).result = .fault reason := rfl
@[simp] theorem State.raise_pending (s : State) (reason : Fault) :
    (s.raise reason).pending = s.pending := rfl

/-! ### present -/

@[simp] theorem State.present_voices (s : State) (w : CommandWord) :
    (s.present w).voices = s.voices := rfl
@[simp] theorem State.present_noise (s : State) (w : CommandWord) :
    (s.present w).noise = s.noise := rfl
@[simp] theorem State.present_sampleNumber (s : State) (w : CommandWord) :
    (s.present w).sampleNumber = s.sampleNumber := rfl
@[simp] theorem State.present_filt (s : State) (w : CommandWord) :
    (s.present w).filt = s.filt := rfl
@[simp] theorem State.present_fault (s : State) (w : CommandWord) :
    (s.present w).fault = s.fault := rfl
@[simp] theorem State.present_result (s : State) (w : CommandWord) :
    (s.present w).result = s.result := rfl
@[simp] theorem State.present_pending (s : State) (w : CommandWord) :
    (s.present w).pending = w :: s.pending := rfl

/-! ### resetSynth -/

@[simp] theorem State.resetSynth_voices (s : State) :
    (s.resetSynth).voices = Vector.replicate Config.numVoices Voice.initial := rfl
@[simp] theorem State.resetSynth_noise (s : State) : (s.resetSynth).noise = Noise.initial := rfl
@[simp] theorem State.resetSynth_sampleNumber (s : State) : (s.resetSynth).sampleNumber = 0 := rfl
@[simp] theorem State.resetSynth_filt (s : State) : (s.resetSynth).filt = s.filt := rfl
@[simp] theorem State.resetSynth_fault (s : State) : (s.resetSynth).fault = s.fault := rfl
@[simp] theorem State.resetSynth_result (s : State) : (s.resetSynth).result = s.result := rfl
@[simp] theorem State.resetSynth_pending (s : State) : (s.resetSynth).pending = s.pending := rfl

/-! ### The voices of an updated state -/

@[simp] theorem State.setNoise_voice (s : State) (N : Noise) (u : Fin Config.numVoices) :
    (s.setNoise N).voice u = s.voice u := rfl
@[simp] theorem State.setFilt_voice (s : State) (f : FilterState) (u : Fin Config.numVoices) :
    (s.setFilt f).voice u = s.voice u := rfl
@[simp] theorem State.emit_voice (s : State) (r : Result) (u : Fin Config.numVoices) :
    (s.emit r).voice u = s.voice u := rfl
@[simp] theorem State.raise_voice (s : State) (reason : Fault) (u : Fin Config.numVoices) :
    (s.raise reason).voice u = s.voice u := rfl
@[simp] theorem State.present_voice (s : State) (w : CommandWord) (u : Fin Config.numVoices) :
    (s.present w).voice u = s.voice u := rfl

/-! ### The filter steps -/

@[simp] theorem FilterState.monoStep_monoY (f : FilterState) (k : F64) (fr : Frame) :
    (f.monoStep k fr).monoY = lp f.monoY (scaled (combined fr)) k := rfl
@[simp] theorem FilterState.monoStep_stYL (f : FilterState) (k : F64) (fr : Frame) :
    (f.monoStep k fr).stYL = f.stYL := rfl
@[simp] theorem FilterState.monoStep_stYR (f : FilterState) (k : F64) (fr : Frame) :
    (f.monoStep k fr).stYR = f.stYR := rfl
@[simp] theorem FilterState.monoStep_hpYL (f : FilterState) (k : F64) (fr : Frame) :
    (f.monoStep k fr).hpYL = f.hpYL := rfl
@[simp] theorem FilterState.monoStep_hpYR (f : FilterState) (k : F64) (fr : Frame) :
    (f.monoStep k fr).hpYR = f.hpYR := rfl
@[simp] theorem FilterState.monoStep_hpPL (f : FilterState) (k : F64) (fr : Frame) :
    (f.monoStep k fr).hpPL = f.hpPL := rfl
@[simp] theorem FilterState.monoStep_hpPR (f : FilterState) (k : F64) (fr : Frame) :
    (f.monoStep k fr).hpPR = f.hpPR := rfl
@[simp] theorem FilterState.monoStep_hpDL (f : FilterState) (k : F64) (fr : Frame) :
    (f.monoStep k fr).hpDL = f.hpDL := rfl
@[simp] theorem FilterState.monoStep_hpDR (f : FilterState) (k : F64) (fr : Frame) :
    (f.monoStep k fr).hpDR = f.hpDR := rfl
@[simp] theorem FilterState.monoStep_hpCur (f : FilterState) (k : F64) (fr : Frame) :
    (f.monoStep k fr).hpCur = f.hpCur := rfl

@[simp] theorem FilterState.stereoStep_monoY (f : FilterState) (k : F64) (fr : Frame) :
    (f.stereoStep k fr).monoY = f.monoY := rfl
@[simp] theorem FilterState.stereoStep_stYL (f : FilterState) (k : F64) (fr : Frame) :
    (f.stereoStep k fr).stYL = lp f.stYL (scaledInt (leftRaw fr)) k := rfl
@[simp] theorem FilterState.stereoStep_stYR (f : FilterState) (k : F64) (fr : Frame) :
    (f.stereoStep k fr).stYR = lp f.stYR (scaledInt (rightRaw fr)) k := rfl
@[simp] theorem FilterState.stereoStep_hpYL (f : FilterState) (k : F64) (fr : Frame) :
    (f.stereoStep k fr).hpYL = f.hpYL := rfl
@[simp] theorem FilterState.stereoStep_hpYR (f : FilterState) (k : F64) (fr : Frame) :
    (f.stereoStep k fr).hpYR = f.hpYR := rfl
@[simp] theorem FilterState.stereoStep_hpPL (f : FilterState) (k : F64) (fr : Frame) :
    (f.stereoStep k fr).hpPL = f.hpPL := rfl
@[simp] theorem FilterState.stereoStep_hpPR (f : FilterState) (k : F64) (fr : Frame) :
    (f.stereoStep k fr).hpPR = f.hpPR := rfl
@[simp] theorem FilterState.stereoStep_hpDL (f : FilterState) (k : F64) (fr : Frame) :
    (f.stereoStep k fr).hpDL = f.hpDL := rfl
@[simp] theorem FilterState.stereoStep_hpDR (f : FilterState) (k : F64) (fr : Frame) :
    (f.stereoStep k fr).hpDR = f.hpDR := rfl
@[simp] theorem FilterState.stereoStep_hpCur (f : FilterState) (k : F64) (fr : Frame) :
    (f.stereoStep k fr).hpCur = f.hpCur := rfl

@[simp] theorem FilterState.hpLowPass_monoY (f : FilterState) (k kp : F64) (fr : Frame) :
    (f.hpLowPass k kp fr).monoY = f.monoY := rfl
@[simp] theorem FilterState.hpLowPass_stYL (f : FilterState) (k kp : F64) (fr : Frame) :
    (f.hpLowPass k kp fr).stYL = f.stYL := rfl
@[simp] theorem FilterState.hpLowPass_stYR (f : FilterState) (k kp : F64) (fr : Frame) :
    (f.hpLowPass k kp fr).stYR = f.stYR := rfl
@[simp] theorem FilterState.hpLowPass_hpYL (f : FilterState) (k kp : F64) (fr : Frame) :
    (f.hpLowPass k kp fr).hpYL = lp f.hpYL (scaledInt (leftRaw fr)) k := rfl
@[simp] theorem FilterState.hpLowPass_hpYR (f : FilterState) (k kp : F64) (fr : Frame) :
    (f.hpLowPass k kp fr).hpYR = lp f.hpYR (scaledInt (rightRaw fr)) k := rfl
@[simp] theorem FilterState.hpLowPass_hpPL (f : FilterState) (k kp : F64) (fr : Frame) :
    (f.hpLowPass k kp fr).hpPL = lp f.hpPL (scaledInt fr.right) kp := rfl
@[simp] theorem FilterState.hpLowPass_hpPR (f : FilterState) (k kp : F64) (fr : Frame) :
    (f.hpLowPass k kp fr).hpPR = lp f.hpPR (scaledInt fr.left) kp := rfl
@[simp] theorem FilterState.hpLowPass_hpDL (f : FilterState) (k kp : F64) (fr : Frame) :
    (f.hpLowPass k kp fr).hpDL = f.hpDL := rfl
@[simp] theorem FilterState.hpLowPass_hpDR (f : FilterState) (k kp : F64) (fr : Frame) :
    (f.hpLowPass k kp fr).hpDR = f.hpDR := rfl
@[simp] theorem FilterState.hpLowPass_hpCur (f : FilterState) (k kp : F64) (fr : Frame) :
    (f.hpLowPass k kp fr).hpCur = f.hpCur := rfl

@[simp] theorem FilterState.hpPush_monoY (f : FilterState) :
    (f.hpPush).monoY = f.monoY := rfl
@[simp] theorem FilterState.hpPush_stYL (f : FilterState) :
    (f.hpPush).stYL = f.stYL := rfl
@[simp] theorem FilterState.hpPush_stYR (f : FilterState) :
    (f.hpPush).stYR = f.stYR := rfl
@[simp] theorem FilterState.hpPush_hpYL (f : FilterState) :
    (f.hpPush).hpYL = f.hpYL := rfl
@[simp] theorem FilterState.hpPush_hpYR (f : FilterState) :
    (f.hpPush).hpYR = f.hpYR := rfl
@[simp] theorem FilterState.hpPush_hpPL (f : FilterState) :
    (f.hpPush).hpPL = f.hpPL := rfl
@[simp] theorem FilterState.hpPush_hpPR (f : FilterState) :
    (f.hpPush).hpPR = f.hpPR := rfl
@[simp] theorem FilterState.hpPush_hpDL (f : FilterState) :
    (f.hpPush).hpDL = f.hpDL.set f.hpCur f.hpPL := rfl
@[simp] theorem FilterState.hpPush_hpDR (f : FilterState) :
    (f.hpPush).hpDR = f.hpDR.set f.hpCur f.hpPR := rfl
@[simp] theorem FilterState.hpPush_hpCur (f : FilterState) :
    (f.hpPush).hpCur = nextCursor f.hpCur := rfl

end Sys2Proof.Machine
end

