-- ==== Sys2Proof/Laws/Ops.lean ====
section
/-! SUPPORT. What each shared operation of Machine/Ops.lean can do, said once. -/

namespace Sys2Proof.Machine

theorem voiceIndex_eq_some {v : BitVec 3} {k : Fin Config.numVoices} (h : v.toNat = k.val) :
    voiceIndex v = some k := by
  have hk := k.isLt
  simp [voiceIndex, h]

theorem voiceIndex_eq_none {v : BitVec 3} (h : ¬v.toNat < Config.numVoices) :
    voiceIndex v = none := by
  simp only [voiceIndex, h, dite_false]

theorem voiceIndex_some_val {v : BitVec 3} {k : Fin Config.numVoices} (h : voiceIndex v = some k) :
    v.toNat = k.val := by
  unfold voiceIndex at h
  split at h
  · simp only [Option.some.injEq] at h
    subst h
    rfl
  · cases h

@[simp] theorem State.setVoice_voice_self (s : State) (v : Fin Config.numVoices) (V : Voice) :
    (s.setVoice v V).voice v = V := by
  simp [State.voice, State.setVoice]

theorem State.setVoice_voice_ne (s : State) {u v : Fin Config.numVoices} (V : Voice) (h : u ≠ v) :
    (s.setVoice v V).voice u = s.voice u := by
  have hv : v.val ≠ u.val := fun e => h (Fin.ext e.symm)
  simp [State.voice, State.setVoice, Vector.getElem_set_ne, hv]

/-- Two voice files that agree at every voice are the same. -/
theorem State.voices_ext {s t : State} (h : ∀ u, t.voice u = s.voice u) : t.voices = s.voices := by
  apply Vector.ext
  intro i hi
  exact h ⟨i, hi⟩

/-- A voice write either writes one voice and returns nothing, or is the fault IllegalCommand. -/
theorem State.writeVoice_cases (s : State) (v : BitVec 3) (V : Voice → Voice) :
    (∃ k : Fin Config.numVoices, v.toNat = k.val ∧
        s.writeVoice v V = (s.setVoice k (V (s.voice k))).emit .none) ∨
      (¬v.toNat < Config.numVoices ∧ s.writeVoice v V = s.raise .illegalCommand) := by
  by_cases h : v.toNat < Config.numVoices
  · refine .inl ⟨⟨v.toNat, h⟩, rfl, ?_⟩
    rw [State.writeVoice, voiceIndex_eq_some (k := ⟨v.toNat, h⟩) rfl]
  · refine .inr ⟨h, ?_⟩
    rw [State.writeVoice, voiceIndex_eq_none h]

theorem State.writeVoice_of_index (s : State) {v : BitVec 3} {k : Fin Config.numVoices}
    (V : Voice → Voice) (h : v.toNat = k.val) :
    s.writeVoice v V = (s.setVoice k (V (s.voice k))).emit .none := by
  rw [State.writeVoice, voiceIndex_eq_some h]

/-- A noise write replaces the noise registers and returns nothing. -/
theorem State.writeNoise_eq (s : State) (N : Noise → Noise) :
    s.writeNoise N = { s with noise := N s.noise, result := .none } := rfl

/-- A fault writes the fault bit and the result port only. -/
theorem State.raise_eq (s : State) (r : Fault) :
    s.raise r = { s with fault := true, result := .fault r } := rfl

theorem State.fetch_nil {s : State} (h : s.pending = []) : s.fetch = none := by
  simp [State.fetch, h]

theorem State.fetch_cons {s : State} {w : CommandWord} {rest : List CommandWord}
    (h : s.pending = w :: rest) : s.fetch = some (w, { s with pending := rest }) := by
  simp [State.fetch, h]

/-- The presented word is the one the core takes next, and the state is otherwise as it was. -/
theorem State.present_fetch (s : State) (w : CommandWord) : (s.present w).fetch = some (w, s) := rfl

end Sys2Proof.Machine
end

