-- ==== Sys2Proof/Laws/PerInstr.lean ====
section
/-! SUPPORT. Families of statements for all commands, one lemma per constructor of Instr. -/

namespace Sys2Proof.Laws.EncodedReservedBitClear

/-- The reserved bit `z` of a command's encoding is 0 (30_encoding.md R71, R75). -/
def Statement (i : Instr) : Prop := zField (encode i) = false

theorem wrate (v : BitVec 3) (imm16 : BitVec 16) : Statement (.wrate v imm16) :=
  zField_packWord _ _ _
theorem wwave (v : BitVec 3) (imm8 : BitVec 8) : Statement (.wwave v imm8) := zField_packWord _ _ _
theorem wvol (v : BitVec 3) (imm8 : BitVec 8) : Statement (.wvol v imm8) := zField_packWord _ _ _
theorem wnper (imm8 : BitVec 8) : Statement (.wnper imm8) := zField_packWord _ _ _
theorem wnvol (imm8 : BitVec 8) : Statement (.wnvol imm8) := zField_packWord _ _ _
theorem wnwave (imm8 : BitVec 8) : Statement (.wnwave imm8) := zField_packWord _ _ _
theorem reset : Statement .reset := zField_packWord _ _ _
theorem frame : Statement .frame := zField_packWord _ _ _
theorem sample : Statement .sample := zField_packWord _ _ _
theorem mono : Statement .mono := zField_packWord _ _ _
theorem stereo : Statement .stereo := zField_packWord _ _ _
theorem hphone : Statement .hphone := zField_packWord _ _ _
theorem sink (ch : BitVec 16) : Statement (.sink ch) := zField_packWord _ _ _

end Sys2Proof.Laws.EncodedReservedBitClear
end

