-- ==== Sys2Proof/Laws/Tick.lean ====
section
/-! SUPPORT. What a tick does to the state, said once: every voice and the noise unit take their own
step, `sample_number` counts, and nothing else is written. -/

namespace Sys2Proof.Machine

/-! ### The slew, and reset or advance, keep the other registers -/

theorem Voice.slew_eq (sn : Nat) (V : Voice) : V.slew sn = { V with realRate := (V.slew sn).realRate } := by
  unfold Voice.slew
  split
  · rfl
  · split <;> rfl

theorem Voice.resetOrAdvance_of_rst {V : Voice} (h : rstFlag V.vol = true) :
    V.resetOrAdvance =
      { V with vol := clearRst V.vol, acc := if signedReset V.wave then 0x8000 else 0 } := by
  simp [Voice.resetOrAdvance, h]

theorem Voice.resetOrAdvance_of_not_rst {V : Voice} (h : rstFlag V.vol = false) :
    V.resetOrAdvance =
      { V with
        wave := if carryOut V.phaseSum && togcFlag V.wave then flipInvA V.wave else V.wave
        acc := BitVec.ofNat 16 V.phaseSum } := by
  simp [Voice.resetOrAdvance, h]

/-! ### One voice's step on the state -/

@[simp] theorem voiceStep_noise (sn : Nat) (p : State × Frame) (v : Fin Config.numVoices) :
    (voiceStep sn p v).1.noise = p.1.noise := rfl
@[simp] theorem voiceStep_sampleNumber (sn : Nat) (p : State × Frame) (v : Fin Config.numVoices) :
    (voiceStep sn p v).1.sampleNumber = p.1.sampleNumber := rfl
@[simp] theorem voiceStep_filt (sn : Nat) (p : State × Frame) (v : Fin Config.numVoices) :
    (voiceStep sn p v).1.filt = p.1.filt := rfl
@[simp] theorem voiceStep_fault (sn : Nat) (p : State × Frame) (v : Fin Config.numVoices) :
    (voiceStep sn p v).1.fault = p.1.fault := rfl
@[simp] theorem voiceStep_result (sn : Nat) (p : State × Frame) (v : Fin Config.numVoices) :
    (voiceStep sn p v).1.result = p.1.result := rfl
@[simp] theorem voiceStep_pending (sn : Nat) (p : State × Frame) (v : Fin Config.numVoices) :
    (voiceStep sn p v).1.pending = p.1.pending := rfl
@[simp] theorem voiceStep_voice_self (sn : Nat) (p : State × Frame) (v : Fin Config.numVoices) :
    (voiceStep sn p v).1.voice v = (p.1.voice v).tick sn := by
  simp [voiceStep]
theorem voiceStep_voice_ne (sn : Nat) (p : State × Frame) {u v : Fin Config.numVoices} (h : u ≠ v) :
    (voiceStep sn p v).1.voice u = p.1.voice u := by
  simp only [voiceStep]
  exact State.setVoice_voice_ne _ _ h

/-! ### The fold over the voices -/

theorem foldl_voiceStep_voice (sn : Nat) (vs : List (Fin Config.numVoices)) (hd : vs.Nodup)
    (p : State × Frame) (u : Fin Config.numVoices) :
    (vs.foldl (voiceStep sn) p).1.voice u =
      if u ∈ vs then (p.1.voice u).tick sn else p.1.voice u := by
  induction vs generalizing p with
  | nil => simp
  | cons v vs ih =>
    rw [List.nodup_cons] at hd
    rw [List.foldl_cons, ih hd.2]
    by_cases huv : u = v
    · subst huv
      simp [hd.1]
    · simp [huv, voiceStep_voice_ne sn p huv]

theorem foldl_voiceStep_rest (sn : Nat) (vs : List (Fin Config.numVoices)) (p : State × Frame) :
    (vs.foldl (voiceStep sn) p).1.noise = p.1.noise ∧
      (vs.foldl (voiceStep sn) p).1.sampleNumber = p.1.sampleNumber ∧
      (vs.foldl (voiceStep sn) p).1.filt = p.1.filt ∧
      (vs.foldl (voiceStep sn) p).1.fault = p.1.fault ∧
      (vs.foldl (voiceStep sn) p).1.result = p.1.result ∧
      (vs.foldl (voiceStep sn) p).1.pending = p.1.pending := by
  induction vs generalizing p with
  | nil => simp
  | cons v vs ih => simpa using ih (voiceStep sn p v)

theorem mem_voiceOrder (v : Fin Config.numVoices) : v ∈ voiceOrder := by
  revert v
  decide

theorem voiceOrder_nodup : voiceOrder.Nodup := by decide

/-! ### The tick -/

theorem coreTick_voice (s : State) (v : Fin Config.numVoices) :
    (coreTick s).1.voice v = (s.voice v).tick s.sampleNumber := by
  have h := foldl_voiceStep_voice s.sampleNumber voiceOrder voiceOrder_nodup (s, Frame.silent) v
  rw [if_pos (mem_voiceOrder v)] at h
  exact h

@[simp] theorem coreTick_noise (s : State) : (coreTick s).1.noise = s.noise.tick := by
  have h := (foldl_voiceStep_rest s.sampleNumber voiceOrder (s, Frame.silent)).1
  exact congrArg Noise.tick h

@[simp] theorem coreTick_sampleNumber (s : State) :
    (coreTick s).1.sampleNumber = s.sampleNumber + 1 := rfl

@[simp] theorem coreTick_filt (s : State) : (coreTick s).1.filt = s.filt :=
  (foldl_voiceStep_rest s.sampleNumber voiceOrder (s, Frame.silent)).2.2.1

@[simp] theorem coreTick_fault (s : State) : (coreTick s).1.fault = s.fault :=
  (foldl_voiceStep_rest s.sampleNumber voiceOrder (s, Frame.silent)).2.2.2.1

@[simp] theorem coreTick_result (s : State) : (coreTick s).1.result = s.result :=
  (foldl_voiceStep_rest s.sampleNumber voiceOrder (s, Frame.silent)).2.2.2.2.1

@[simp] theorem coreTick_pending (s : State) : (coreTick s).1.pending = s.pending :=
  (foldl_voiceStep_rest s.sampleNumber voiceOrder (s, Frame.silent)).2.2.2.2.2

/-- The buses of a fold, from any start, in the voices' order. -/
theorem foldl_voiceStep_frame (sn : Nat) (vs : List (Fin Config.numVoices)) (hd : vs.Nodup)
    (p : State × Frame) :
    (vs.foldl (voiceStep sn) p).2 =
      vs.foldl (fun f v =>
        f.addTo (panOf ((p.1.voice v).tick sn).wave) ((p.1.voice v).tick sn).contribution) p.2 := by
  induction vs generalizing p with
  | nil => rfl
  | cons v vs ih =>
    rw [List.nodup_cons] at hd
    rw [List.foldl_cons, List.foldl_cons, ih hd.2]
    apply List.foldl_ext
    intro f u hu
    have huv : u ≠ v := fun e => hd.1 (e ▸ hu)
    rw [voiceStep_voice_ne sn p huv]

/-- The frame of a tick: each voice's contribution on its bus, then the noise on Boosted. -/
theorem coreTick_frame (s : State) :
    (coreTick s).2 =
      (voiceOrder.foldl (fun f v =>
        f.addTo (panOf ((s.voice v).tick s.sampleNumber).wave)
          ((s.voice v).tick s.sampleNumber).contribution) Frame.silent).addTo .boosted
        s.noise.contribution := by
  have h := foldl_voiceStep_frame s.sampleNumber voiceOrder voiceOrder_nodup (s, Frame.silent)
  have hn := (foldl_voiceStep_rest s.sampleNumber voiceOrder (s, Frame.silent)).1
  simp only [coreTick, noiseStep, h, hn]

/-! ### A tick with a filter mode -/

/-- The three filtered ticks write the synthesis state as `coreTick` does. -/
theorem filteredTicks_synthesis (k kp : F64) (s : State) :
    ((monoTick k s).voices = (coreTick s).1.voices ∧ (monoTick k s).noise = s.noise.tick ∧
        (monoTick k s).sampleNumber = s.sampleNumber + 1 ∧ (monoTick k s).fault = s.fault ∧
        (monoTick k s).pending = s.pending) ∧
      ((stereoTick k s).voices = (coreTick s).1.voices ∧ (stereoTick k s).noise = s.noise.tick ∧
        (stereoTick k s).sampleNumber = s.sampleNumber + 1 ∧ (stereoTick k s).fault = s.fault ∧
        (stereoTick k s).pending = s.pending) ∧
      ((hphoneTick k kp s).voices = (coreTick s).1.voices ∧
        (hphoneTick k kp s).noise = s.noise.tick ∧
        (hphoneTick k kp s).sampleNumber = s.sampleNumber + 1 ∧ (hphoneTick k kp s).fault = s.fault ∧
        (hphoneTick k kp s).pending = s.pending) := by
  simp [monoTick, stereoTick, hphoneTick]

theorem monoTick_filt (k : F64) (s : State) :
    (monoTick k s).filt = s.filt.monoStep k (coreTick s).2 := by
  simp [monoTick]

theorem stereoTick_filt (k : F64) (s : State) :
    (stereoTick k s).filt = s.filt.stereoStep k (coreTick s).2 := by
  simp [stereoTick]

theorem hphoneTick_filt (k kp : F64) (s : State) :
    (hphoneTick k kp s).filt = (s.filt.hpLowPass k kp (coreTick s).2).hpPush := by
  simp [hphoneTick]

end Sys2Proof.Machine
end

