-- ==== Sys2Proof/Laws/Units.lean ====
section
/-! SUPPORT. Small laws of the voice and noise functions: which registers each leaves alone, and the
fields of a register as numbers. -/

namespace Sys2Proof.Machine

/-! ### Fields as numbers -/

theorem slewClass_eq (t : BitVec 16) : slewClass t = t.toNat / 2 ^ 14 := by
  have h := t.isLt
  simp [slewClass, Nat.shiftRight_eq_div_pow]
  omega

theorem target14_toNat (t : BitVec 16) : (target14 t).toNat = t.toNat % 2 ^ 14 := by
  simp [target14]

theorem level_toNat (v : BitVec 8) : (level v).toNat = v.toNat % 128 := by
  simp [level]

theorem phaseSum_lt (V : Voice) : V.phaseSum < 2 * 65536 := by
  have h1 := V.acc.isLt
  have h2 := V.realRate.isLt
  unfold Voice.phaseSum
  omega

/-! ### The voice's tick -/

@[simp] theorem Voice.slew_targetRate (sn : Nat) (V : Voice) :
    (V.slew sn).targetRate = V.targetRate := by
  unfold Voice.slew
  split
  · rfl
  · split <;> rfl

@[simp] theorem Voice.slew_acc (sn : Nat) (V : Voice) : (V.slew sn).acc = V.acc := by
  unfold Voice.slew
  split
  · rfl
  · split <;> rfl

@[simp] theorem Voice.slew_wave (sn : Nat) (V : Voice) : (V.slew sn).wave = V.wave := by
  unfold Voice.slew
  split
  · rfl
  · split <;> rfl

@[simp] theorem Voice.slew_vol (sn : Nat) (V : Voice) : (V.slew sn).vol = V.vol := by
  unfold Voice.slew
  split
  · rfl
  · split <;> rfl

@[simp] theorem Voice.resetOrAdvance_targetRate (V : Voice) :
    V.resetOrAdvance.targetRate = V.targetRate := by
  unfold Voice.resetOrAdvance
  split <;> rfl

@[simp] theorem Voice.resetOrAdvance_realRate (V : Voice) :
    V.resetOrAdvance.realRate = V.realRate := by
  unfold Voice.resetOrAdvance
  split <;> rfl

/-! ### The noise unit -/

@[simp] theorem Noise.count_nper (N : Noise) : N.count.nper = N.nper := by
  unfold Noise.count
  split <;> rfl

@[simp] theorem Noise.count_nvol (N : Noise) : N.count.nvol = N.nvol := by
  unfold Noise.count
  split <;> rfl

@[simp] theorem Noise.count_nwave (N : Noise) : N.count.nwave = N.nwave := by
  unfold Noise.count
  split <;> rfl

@[simp] theorem Noise.subStep_nper (p : Noise × Nat) (i : Nat) :
    (Noise.subStep p i).1.nper = p.1.nper := by
  unfold Noise.subStep
  split <;> simp

@[simp] theorem Noise.subStep_nvol (p : Noise × Nat) (i : Nat) :
    (Noise.subStep p i).1.nvol = p.1.nvol := by
  unfold Noise.subStep
  split <;> simp

@[simp] theorem Noise.subStep_nwave (p : Noise × Nat) (i : Nat) :
    (Noise.subStep p i).1.nwave = p.1.nwave := by
  unfold Noise.subStep
  split <;> simp

/-- Sub-steps write `ncnt` and `lfsr` only. -/
theorem Noise.foldl_subStep_kept (is : List Nat) (p : Noise × Nat) :
    (is.foldl Noise.subStep p).1.nper = p.1.nper ∧ (is.foldl Noise.subStep p).1.nvol = p.1.nvol ∧
      (is.foldl Noise.subStep p).1.nwave = p.1.nwave := by
  induction is generalizing p with
  | nil => simp
  | cons i is ih => simpa using ih (Noise.subStep p i)

@[simp] theorem Noise.resetFlag_nper (N : Noise) : N.resetFlag.nper = N.nper := by
  unfold Noise.resetFlag
  split <;> rfl

@[simp] theorem Noise.resetFlag_nwave (N : Noise) : N.resetFlag.nwave = N.nwave := by
  unfold Noise.resetFlag
  split <;> rfl

@[simp] theorem Noise.resetFlag_ncnt (N : Noise) : N.resetFlag.ncnt = N.ncnt := by
  unfold Noise.resetFlag
  split <;> rfl

@[simp] theorem Noise.tick_nper (N : Noise) : N.tick.nper = N.nper := by
  rw [Noise.tick, Noise.subSteps, (Noise.foldl_subStep_kept _ _).1]
  simp

@[simp] theorem Noise.tick_nwave (N : Noise) : N.tick.nwave = N.nwave := by
  rw [Noise.tick, Noise.subSteps, (Noise.foldl_subStep_kept _ _).2.2]
  simp

theorem Noise.tick_nvol (N : Noise) : N.tick.nvol = N.resetFlag.nvol := by
  rw [Noise.tick, Noise.subSteps, (Noise.foldl_subStep_kept _ _).2.1]

end Sys2Proof.Machine
end

