-- ==== Sys2Proof/Tests/Slice0.lean ====
section
/-! SUPPORT. Tests of the model against words and values written out from the spec (30_encoding.md R71
and R78, 95_test_vectors.md), and a witness for every statement that has hypotheses. -/

namespace Sys2Proof.Tests

open Sys2Proof.Machine

/-! ### Well-formedness: an ill-formed term for each check -/

theorem test_voice_seven_wrate_ill_formed : (Instr.wrate 7 0).wellFormed = false := by decide
theorem test_voice_seven_wwave_ill_formed : (Instr.wwave 7 0).wellFormed = false := by decide
theorem test_voice_seven_wvol_ill_formed : (Instr.wvol 7 0).wellFormed = false := by decide
theorem test_voice_six_well_formed : (Instr.wrate 6 0).wellFormed = true := by decide

/-! ### Decoding: one word per row of the opcode table, written out bit by bit as op, z, idx, data
(R71, R73) -/

theorem test_decode_wrate :
    decode 0b0001_0_010_0100000000000100 = .ok (.wrate 2 0x4004) := by decide
theorem test_decode_wwave_ignores_high_data :
    decode 0b0010_0_000_0000000110101011 = .ok (.wwave 0 0xAB) := by decide
theorem test_decode_wvol :
    decode 0b0011_0_011_0000000011000000 = .ok (.wvol 3 0xC0) := by decide
theorem test_decode_wnper_ignores_high_data :
    decode 0b0100_0_000_0000000111111111 = .ok (.wnper 0xFF) := by decide
theorem test_decode_wnvol :
    decode 0b0101_0_000_0000000000100000 = .ok (.wnvol 0x20) := by decide
theorem test_decode_wnwave :
    decode 0b0110_0_000_0000000001010101 = .ok (.wnwave 0x55) := by decide
theorem test_decode_reset : decode 0b0111_0_000_0000000000000000 = .ok .reset := by decide
theorem test_decode_frame : decode 0b1000_0_000_0000000000000000 = .ok .frame := by decide
theorem test_decode_sample : decode 0b1001_0_000_0000000000000000 = .ok .sample := by decide
theorem test_decode_mono : decode 0b1010_0_000_0000000000000000 = .ok .mono := by decide
theorem test_decode_stereo : decode 0b1011_0_000_0000000000000000 = .ok .stereo := by decide
theorem test_decode_hphone : decode 0b1100_0_000_0000000000000000 = .ok .hphone := by decide
theorem test_decode_sink_unmasked :
    decode 0b1101_0_000_0000000100000001 = .ok (.sink 0x101) := by decide

/-- V-ENC-1 to V-ENC-10: the illegal words. -/
theorem test_decode_illegal_words :
    decode 0x000000 = .error .illegalOpcode ∧ decode 0x171234 = .error .voiceSeven ∧
      decode 0x180000 = .error .reservedBit ∧ decode 0x410000 = .error .indexNotZero ∧
      decode 0x6F0000 = .error .reservedBit ∧ decode 0x700001 = .error .dataNotZero ∧
      decode 0x800001 = .error .dataNotZero ∧ decode 0xE00000 = .error .illegalOpcode ∧
      decode 0xF00000 = .error .illegalOpcode ∧ decode 0xD10002 = .error .indexNotZero := by
  decide

/-- The assembly examples of V-ENC. -/
theorem test_encode_assembly :
    encode (.wrate 2 0x4004) = 0x124004 ∧ encode (.wwave 6 0x48) = 0x260048 ∧
      encode (.wvol 3 0xC0) = 0x3300C0 ∧ encode (.wnvol 0x20) = 0x500020 ∧
      encode (.wnwave 0x55) = 0x600055 ∧ encode .hphone = 0xC00000 := by
  decide

theorem test_decode_table_word : decodeTableWord 24 0x3100FF = some (.wvol 1 0xFF) := by decide
theorem test_decode_table_word_refused : decodeTableWord 24 0x171234 = none := by decide

/-! ### Helpers -/

/-- The state a command leaves. -/
def after (i : Instr) (s : State) : State :=
  match exec i s with
  | .next t => t
  | .fault _ => s
  | .refused _ => s

/-- The state a list of commands leaves. -/
def afterAll (is : List Instr) (s : State) : State := is.foldl (fun t i => after i t) s

/-! ### Register writes (V-ENC, V-REG) -/

theorem test_wrate_sets_target :
    ((after (.wrate 0 0x8000) State.reset).voice 0).targetRate = 0x8000 ∧
      ((after (.wrate 0 0x8000) State.reset).voice 0).realRate = 0 := by decide
theorem test_wwave_sets_wave_of_its_voice_only :
    ((after (.wwave 2 0xFF) State.reset).voice 2).wave = 0xFF ∧
      ((after (.wwave 2 0xFF) State.reset).voice 1).wave = 0 := by decide
theorem test_wvol_sets_vol : ((after (.wvol 1 0xFF) State.reset).voice 1).vol = 0xFF := by decide
/-- V-REG-1: eight increments, then the rewrite of the same period zeroes the counter. -/
theorem test_wnper_zeroes_counter :
    (afterAll [.wnper 255, .frame] State.reset).noise.ncnt = 8 ∧
      (afterAll [.wnper 255, .frame, .wnper 255] State.reset).noise.ncnt = 0 := by decide +kernel
/-- V-NOISE-7 from `lfsr` = 0x0028. -/
theorem test_wnvol_arms_lfsr_reset :
    let s := { State.reset with noise := { Noise.initial with lfsr := 0x0028 } }
    (afterAll [.wnvol 0xC0, .frame] s).noise.lfsr = 0x0080 ∧
      (afterAll [.wnvol 0xC0, .frame] s).noise.nvol = 0x40 := by decide +kernel
/-- V-NOISE-4, first tick: only sub-step 7 shifts, the sum is 8. -/
theorem test_wnwave_skips :
    (afterAll [.wnvol 64, .wnwave 0x7F, .frame] State.reset).noise.lfsr = 0x4000 ∧
      (afterAll [.wnvol 64, .wnwave 0x7F, .frame] State.reset).result =
        .frame { center := 0, right := 0, left := 0, boosted := 40 } := by decide +kernel
theorem test_reset_keeps_fault_and_clears_voice :
    let t := after .reset { after (.wvol 3 0x12) State.reset with fault := true }
    t.fault = true ∧ (t.voice 3).vol = 0 := by decide

/-! ### Voices (V-SRC-3, V-TOG-1, V-WAVE, V-Q6) -/

theorem test_reset_flag_to_half_range :
    let V : Voice := { targetRate := 1000, realRate := 1000, acc := 3003, wave := 0xE0, vol := 0xC0 }
    (V.tick 3).acc = 0x8000 ∧ (V.tick 3).vol = 0x40 ∧ (V.tick 3).contribution = 0 := by decide
theorem test_carry_toggles_inva :
    let V : Voice :=
      { targetRate := 0x3FFF, realRate := 0x3FFF, acc := 0xC000, wave := 0x30, vol := 0x40 }
    (V.tick 3).acc = 0 ∧ (V.tick 3).wave = 0x38 ∧ (V.tick 3).contribution = 31 := by decide
theorem test_wavefn_vectors :
    wavefn 0x1234 0x21 = 59 ∧ wavefn 0xC000 0x2F = 15 ∧ wavefn 0x9C00 0x24 = 39 ∧
      wavefn 0x2000 0x0F = 63 ∧ wavefn 0x4000 0x0F = 0 := by decide
theorem test_q6_vectors :
    q6 0 1 = -1 ∧ q6 31 32 = -1 ∧ q6 63 63 = 30 ∧ q6 72 63 = 39 ∧ q6 72 64 = 40 ∧ q6 0 100 = -32 := by
  decide
/-- V-SLEW-3: the gate of class 3 opens at `sample_number` 32 and moves down by one. -/
theorem test_slew_class_three :
    let V : Voice := { targetRate := 0xC000, realRate := 2, acc := 0, wave := 0, vol := 0 }
    (V.slew 31).realRate = 2 ∧ (V.slew 32).realRate = 1 := by decide

/-! ### Generation (V-ROUTING, V-GEN, V-MIX, V-ENC-11 to V-ENC-14) -/

theorem test_frame_routes_to_left :
    (afterAll [.wwave 0 0x88, .wvol 0 64, .frame] State.reset).result =
      .frame { center := 0, right := 0, left := 31, boosted := 0 } := by decide +kernel
/-- V-GEN-2 -/
theorem test_sample_combines :
    (afterAll [.wwave 0 0x48, .wvol 0 64, .wwave 1 0x08, .wvol 1 64, .sample] State.reset).result =
      .value (ofRatio 31 1) := by decide +kernel
/-- V-MIX-5 -/
theorem test_mixes :
    let f : Frame := { center := 31, right := 5, left := -7, boosted := 9 }
    combined f = ofRatio 47 2 ∧ leftRaw f = 17 ∧ rightRaw f = 29 := by decide +kernel
/-- V-MIX-3: half of -1 rounds down in the channels and not in the combined mix. -/
theorem test_center_halves_down :
    let f : Frame := { center := -1, right := 0, left := 0, boosted := 0 }
    combined f = fneg halfF ∧ leftRaw f = -1 := by decide +kernel
theorem test_sink_three_faults :
    (after (.sink 3) State.reset).result = .fault .contractViolation ∧
      (after (.sink 3) State.reset).sampleNumber = 0 := by decide
theorem test_sink_one_ticks : (after (.sink 1) State.reset).sampleNumber = 1 := by decide +kernel
theorem test_mono_ticks : (after .mono State.reset).sampleNumber = 1 := by decide +kernel
theorem test_stereo_ticks : (after .stereo State.reset).sampleNumber = 1 := by decide +kernel
theorem test_hphone_moves_cursor : (after .hphone State.reset).filt.hpCur = 1 := by decide +kernel

/-! ### The filter with the coefficients of V-FILT-0, read from their decimal digits -/

/-- `k_dac` at 48000 Hz -/
def k48 : F64 := ofRatio 4197669697731041 (10 ^ 16)
/-- `e_pan` at 48000 Hz -/
def e48 : F64 := ofRatio 8168781224578572 (10 ^ 16)

/-- V-FILT-0 -/
theorem test_k_pan : panCoeffOf k48 e48 = ofRatio 8937466380928839 (10 ^ 16) := by decide +kernel
/-- V-FILT-1, first two outputs. -/
theorem test_mono_filter :
    let f : Frame := { center := 31, right := 0, left := 0, boosted := 0 }
    let g := FilterState.initial.monoStep k48 f
    g.monoY = ofRatio 35131296752019085 (10 ^ 18) ∧
      (g.monoStep k48 f).monoY = ofRatio 4987825473381383 (10 ^ 17) := by decide +kernel
/-- V-FILT-2, first output. -/
theorem test_stereo_filter :
    let f : Frame := { center := 0, right := 0, left := 31, boosted := 0 }
    let g := FilterState.initial.stereoStep k48 f
    g.stYL = ofRatio 7026259350403817 (10 ^ 17) ∧ g.stYR = zeroF := by decide +kernel
/-- V-FILT-3: the pan sample of command 0, which command 23 adds to a silent left channel, enters slot
0 of the left buffer. -/
theorem test_headphone_pan_enters_delay :
    let f : Frame := { center := 0, right := 31, left := 0, boosted := 0 }
    let g := (FilterState.initial.hpLowPass k48 (panCoeffOf k48 e48) f).hpPush
    g.hpDL[0] = ofRatio 12866618043439845 (10 ^ 18) ∧ g.hpDR[0] = zeroF ∧
      g.hpYR = ofRatio 7026259350403817 (10 ^ 17) := by decide +kernel

/-! ### The step -/

/-- V-ENC-2: an illegal word sets `fault`, and the core goes on (P4). -/
theorem test_step_illegal_word :
    step (State.reset.withFetchWord 24 0x171234) =
      .next { State.reset with fault := true, result := .fault .illegalCommand } := rfl
theorem test_step_runs_first_command :
    step (State.reset.withFetchWord 24 0xC00000) = exec .hphone State.reset := rfl

/-! ### Witnesses: for each statement with hypotheses, a state and operands that meet them -/

/-- A state that no rule makes special: voice 0 slews up, voice 1 has RST set, voice 2 is at its
target with TOGC set, the noise counts, the fault bit is set and a word is presented. -/
def someState : State :=
  { State.reset with
    voices :=
      #v[{ targetRate := 0x4005, realRate := 0, acc := 7, wave := 0x20, vol := 64 },
        { targetRate := 9, realRate := 9, acc := 1, wave := 0xC0, vol := 0xC0 },
        { targetRate := 0x7FFF, realRate := 0x3FFF, acc := 0xFFFF, wave := 0x30, vol := 0x40 },
        Voice.initial, Voice.initial, Voice.initial, Voice.initial]
    noise := { nper := 3, nvol := 64, nwave := 0x55, lfsr := 0x28, ncnt := 3 }
    sampleNumber := 8
    fault := true
    pending := [0x800000] }

theorem witness_DecodeEncodeRoundTrip :
    (Instr.wrate 6 0xFFFF).wellFormed = true ∧ (Instr.wrate 0 0).wellFormed = true := by decide
theorem witness_EncodeDecodeUpToIgnoredBits :
    decode 0x2001AB = .ok (.wwave 0 0xAB) ∧ decode 0x6001FF = .ok (.wnwave 0xFF) ∧
      decode 0x160000 = .ok (.wrate 6 0) ∧ decode 0xD0FFFF = .ok (.sink 0xFFFF) := by decide
theorem witness_IllegalWordsExactly :
    decode 0x171234 = .error .voiceSeven ∧ (0#16) ≠ 1 ∧ (0#16) ≠ 2 := by decide
theorem witness_StepRunsDecodedCommand :
    someState.pending = [0x800000] ∧ decode 0x800000 = .ok .frame ∧
      Instr.frame.wellFormed = true := by decide
theorem witness_StepIdlesWithoutCommand : State.reset.pending = [] := rfl
theorem witness_PresentedWordsRunInOrder :
    ∀ i ∈ [Instr.wrate 6 0x4005, .frame, .sink 3], i.wellFormed = true := by decide
theorem witness_WrateSetsTargetRate :
    (6#3).toNat = (6 : Fin Config.numVoices).val ∧ (0#3).toNat = (0 : Fin Config.numVoices).val ∧
      (0x3FFF#16).toNat < 2 ^ 14 ∧ tickCommand .frame = true ∧ (7#3) = 7 ∧
      (someState.voice 0).vol.getLsbD 7 = false := by decide
theorem witness_WwaveSetsWaveform :
    (1#3).toNat = (1 : Fin Config.numVoices).val ∧
      (someState.voice 1).vol.getLsbD 7 = true ∧ tickCommand .mono = true := by decide
theorem witness_WvolSetsVolume :
    (6#3).toNat = (6 : Fin Config.numVoices).val ∧ tickCommand .stereo = true ∧
      128 ≤ (128#8).toNat ∧ (127#8).toNat < 128 ∧ 64 ≤ (64#8).toNat % 128 ∧
      (128#8).toNat % 128 = 0 := by decide
theorem witness_WnperSetsPeriodZeroesCounter : (1#1) ≠ 0 ∧ (1#3) ≠ 0 := by decide
theorem witness_WnvolSetsVolume :
    (0x80#8).getLsbD 7 = true ∧ tickCommand .hphone = true ∧ (1#1) ≠ 0 ∧
      64 ≤ (64#8).toNat % 128 := by decide
theorem witness_WnwaveSetsWaveform :
    (0xFF#8) &&& 0x7F = 0x7F ∧ tickCommand .sample = true ∧ (7#3) ≠ 0 := by decide
theorem witness_ResetClearsSynthesis : (1#1) ≠ 0 ∧ (1#3) ≠ 0 ∧ (1#16) ≠ 0 := by decide
theorem witness_WritesIdempotentTicksNot :
    writeCommand (.wnper 3) = true ∧ tickCommand (.sink 2) = true := by decide
theorem witness_LastWriteWins :
    (∀ i ∈ [Instr.wrate 6 1, .wnper 3, .wrate 6 2], (writeOf i).isSome = true) ∧
      (Instr.wnper 3 ∈ [Instr.wrate 6 1, .wnper 3, .wrate 6 2]) := by decide
theorem witness_LastWriteWins_no_period :
    (∀ i ∈ [Instr.wvol 0 1], (writeOf i).isSome = true) ∧
      ∀ imm8, Instr.wnper imm8 ∉ [Instr.wvol 0 1] := by
  refine ⟨by decide, fun imm8 h => ?_⟩
  simp at h
theorem witness_TickCommandsRunOneTick :
    tickCommand .frame = true ∧ tickCommand .sample = true ∧ tickCommand .mono = true ∧
      tickCommand .stereo = true ∧ tickCommand .hphone = true ∧ tickCommand (.sink 1) = true ∧
      tickCommand (.sink 2) = true := by decide
theorem witness_TickSlewsRealRate : tickCommand (.sink 2) = true := by decide
theorem witness_TickResetsOrAdvances :
    tickCommand .frame = true ∧ (someState.voice 1).vol.getLsbD 7 = true ∧
      (someState.voice 2).vol.getLsbD 7 = false := by decide
theorem witness_MultiplySaturatesAndFloors :
    64 ≤ (64#7).toNat ∧ (63#7).toNat < 64 ∧ (63 : Nat) ≤ 63 ∧ (72 : Nat) ≤ 72 := by decide
theorem witness_UnitStepsCommute :
    tickCommand .frame = true ∧ tickCommand .hphone = true ∧
      someState.voice 3 = { State.reset with sampleNumber := 8 }.voice 3 ∧
      someState.sampleNumber = { State.reset with sampleNumber := 8 }.sampleNumber := by decide
theorem witness_SlewReachesTarget :
    2 ^ ((someState.voice 0).targetRate.toNat / 2 ^ 14 + 2) *
        ((someState.voice 0).realRate.toNat - (someState.voice 0).targetRate.toNat % 2 ^ 14 +
          ((someState.voice 0).targetRate.toNat % 2 ^ 14 - (someState.voice 0).realRate.toNat))
      ≤ 40 ∧ 0 < 40 := by decide
theorem witness_HeldVoiceIsPeriodic :
    (someState.voice 2).realRate.toNat = (someState.voice 2).targetRate.toNat % 2 ^ 14 ∧
      (someState.voice 2).vol.getLsbD 7 = false := by decide
theorem witness_NoiseTickClosedForm :
    tickCommand .mono = true ∧ someState.noise.ncnt.toNat ≤ someState.noise.nper.toNat := by decide
theorem witness_LfsrSequenceLengths : (1#15) ≠ 0 ∧ 0 < 1 ∧ 1 < 93 := by decide
theorem witness_PeriodRewriteStopsLfsr :
    someState.noise.nvol.getLsbD 7 = false ∧
      activeSubSteps someState.noise.nwave ≤ (4#8).toNat := by decide
theorem witness_FrameReturnsTickFrame : (1#1) ≠ 0 ∧ (1#3) ≠ 0 ∧ (1#16) ≠ 0 := by decide
theorem witness_SampleReturnsCombinedMix : (1#1) ≠ 0 ∧ (1#3) ≠ 0 ∧ (0x8000#16) ≠ 0 := by decide
theorem witness_CombinedMixIsExact :
    let f : Frame := { center := 1000, right := 20, left := 3, boosted := -1023 }
    |f.center + f.right + f.left| < 2 ^ 10 ∧ |f.boosted| < 2 ^ 10 := by decide
theorem witness_ZeroStateIsSilent :
    (∀ v, (State.reset.voice v).wave = 0 ∧ (State.reset.voice v).vol = 0) ∧
      State.reset.noise.nvol.toNat % 128 = 0 := by decide
theorem witness_SampleNumberCountsTicks : Instr.reset ∉ [Instr.frame, .wnper 3, .mono] := by decide
theorem witness_IntegersConvertExactly : |(2 ^ 53 - 1 : Int)| < 2 ^ 53 := by decide
theorem witness_ScalingIsExact : |(-1023 : Int)| < 2 ^ 10 := by decide

/-- The value of 0.5, which several witnesses use. -/
theorem valueOf_halfF : valueOf halfF = 1 / 2 := by
  have h : unitsOf halfF = 2 ^ 1073 := by decide +kernel
  have hp : (2 : ℚ) ^ 1073 ≠ 0 := pow_ne_zero _ (by norm_num)
  rw [valueOf, h, Int.cast_pow, Int.cast_ofNat, pow_succ]
  generalize (2 : ℚ) ^ 1073 = a at hp
  field_simp
theorem isFinite_halfF : isFinite halfF = true := by decide +kernel

theorem witness_OperationsRoundToNearestEven :
    isFinite halfF = true ∧ valueOf halfF ≠ 0 := by
  refine ⟨isFinite_halfF, ?_⟩
  rw [valueOf_halfF]
  norm_num
theorem witness_RoundsTo_below_bound : |valueOf halfF + valueOf halfF| < overflowBound := by
  have h : (2 : ℚ) ^ 1024 = 2 ^ 970 * 2 ^ 54 := by rw [← pow_add]
  have h1 : (1 : ℚ) ≤ 2 ^ 970 := one_le_pow₀ (by norm_num)
  rw [valueOf_halfF, overflowBound, h]
  generalize (2 : ℚ) ^ 970 = a at h1
  norm_num
  linarith
/-- The largest finite value and 2^970: their sum is the overflow bound itself. -/
theorem witness_RoundsTo_at_bound :
    isFinite (.finite false 2046 (BitVec.allOnes 52)) = true ∧
      isFinite (.finite false 1993 0) = true ∧
      overflowBound ≤
        |valueOf (.finite false 2046 (BitVec.allOnes 52)) + valueOf (.finite false 1993 0)| := by
  have h : unitsOf (.finite false 2046 (BitVec.allOnes 52)) + unitsOf (.finite false 1993 0) =
      2 ^ 2098 - 2 ^ 2044 := by decide +kernel
  refine ⟨rfl, rfl, le_trans (le_of_eq ?_) (le_abs_self _)⟩
  have h1 : (2 : ℚ) ^ 2098 = 2 ^ 1024 * 2 ^ 1074 := by rw [← pow_add]
  have h2 : (2 : ℚ) ^ 2044 = 2 ^ 970 * 2 ^ 1074 := by rw [← pow_add]
  rw [valueOf, valueOf, ← add_div, ← Int.cast_add, h, overflowBound, Int.cast_sub,
    Int.cast_pow, Int.cast_pow, Int.cast_ofNat, h1, h2, ← sub_mul]
  exact (mul_div_cancel_right₀ _ (pow_ne_zero _ (by norm_num))).symm
theorem witness_LowPassKeepsConstantInput :
    isFinite halfF = true ∧ halfF ≠ negZeroF ∧ isFinite k48 = true := by decide +kernel
theorem witness_PanCoefficientInUnit : InOpenUnit halfF := by
  refine ⟨isFinite_halfF, ?_, ?_⟩ <;> rw [valueOf_halfF] <;> norm_num
theorem historyOk_halfF : HistoryOk halfF := by
  refine ⟨isFinite_halfF, by decide +kernel, ?_, ?_⟩ <;> rw [valueOf_halfF] <;> norm_num

/-- A filter stage with every history and every slot at 0.5. -/
def halfFilt : FilterState :=
  { monoY := halfF, stYL := halfF, stYR := halfF, hpYL := halfF, hpYR := halfF, hpPL := halfF
    hpPR := halfF, hpDL := Vector.replicate 23 halfF, hpDR := Vector.replicate 23 halfF, hpCur := 22 }

theorem halfFilt_bounded : halfFilt.Bounded := by
  have h := historyOk_halfF
  simp only [FilterState.Bounded, halfFilt, Fin.getElem_fin, Vector.getElem_replicate]
  exact ⟨h, h, h, h, h, h, h, fun _ => ⟨h, h⟩⟩
theorem witness_FilterHistoriesStayBounded :
    InUnit halfF ∧ { State.reset with filt := halfFilt }.filt.Bounded := by
  refine ⟨⟨isFinite_halfF, ?_, ?_⟩, halfFilt_bounded⟩ <;> rw [valueOf_halfF] <;> norm_num
theorem witness_MonoFiltersCombinedMix : (1#1) ≠ 0 ∧ (1#3) ≠ 0 ∧ (1#16) ≠ 0 := by decide
theorem witness_StereoFiltersBothChannels : (1#1) ≠ 0 ∧ (1#3) ≠ 0 ∧ (0xFFFF#16) ≠ 0 := by decide
theorem witness_HphoneAddsDelayedPan : (1#1) ≠ 0 ∧ (7#3) ≠ 0 ∧ (1#16) ≠ 0 := by decide
theorem witness_SinkFollowsChannelCount : (0#16) ≠ 1 ∧ (0#16) ≠ 2 ∧ (3#16) ≠ 1 ∧ (3#16) ≠ 2 := by
  decide
theorem witness_HeadphoneDelayIs23Commands : (22 : Nat) < 23 := by decide
theorem witness_ModesKeepSeparateHistories :
    SameSynthesis someState { someState with filt := halfFilt, fault := false } ∧
      Instr.sink 3 ≠ .mono ∧ Instr.sink 3 ≠ .sink 1 := by
  refine ⟨⟨rfl, rfl, rfl⟩, by decide, by decide⟩
theorem witness_ModesKeepSeparateHistories_headphone :
    SameSynthesis someState { someState with fault := false, sampleNumber := 8 } ∧
      someState.filt =
        { someState.filt with
          monoY := someState.filt.monoY, stYL := someState.filt.stYL, stYR := someState.filt.stYR } :=
  ⟨⟨rfl, rfl, rfl⟩, rfl⟩
theorem witness_InvariantKeptByEveryStep : someState.Inv := by
  refine ⟨?_, ?_, ?_, ?_⟩ <;> decide
theorem witness_CoreNeverStopsFaultIsSticky : someState.fault = true := rfl
theorem witness_FieldsHaveTheirWritersOnly :
    Instr.wvol 6 1 ≠ .reset ∧ tickCommand (.wvol 6 1) = false ∧ tickCommand .mono = true ∧
      (6#3).toNat ≠ (5 : Fin Config.numVoices).val := by decide
theorem witness_SynthesisIgnoresFilterAndFault :
    SameSynthesis someState { someState with filt := halfFilt, fault := false, result := .none } :=
  ⟨rfl, rfl, rfl⟩

end Sys2Proof.Tests
end

section
/-! PROOF. What the rounding of Machine/Float.lean is in exact arithmetic (00_scope.md R10): a rounded
magnitude is the one nearest the exact fraction among the magnitudes of finite values, the even one of
two equally near, and infinity from `overflowBound` on. -/

namespace Sys2Proof.Machine

/-! ### Rounding to an integer, by distance -/

/-- A fraction halfway between two integers is rounded to the even one. -/
theorem roundEven_even_of_half {n d : Nat} (hd : 0 < d)
    (h : 2 * n = 2 * (d * roundEven n d) + d ∨ 2 * (d * roundEven n d) = 2 * n + d) :
    roundEven n d % 2 = 0 := by
  have hdiv := Nat.div_add_mod n d
  have hlt := Nat.mod_lt n hd
  apply roundEven_even_of_tie
  obtain ⟨hr, e⟩ | ⟨hr, e⟩ | ⟨hr, _⟩ := roundEven_cases (n := n) (d := d)
  · rw [e] at h
    omega
  · rw [e, Nat.mul_add, Nat.mul_one] at h
    omega
  · exact hr

/-- No integer is nearer to n / d than the rounded one, and at a tie that one is even. -/
theorem roundEven_nearest {n d : Nat} (hd : 0 < d) (j : Nat) :
    |(n : Int) - d * roundEven n d| ≤ |(n : Int) - d * j| ∧
      (|(n : Int) - d * roundEven n d| = |(n : Int) - d * j| →
        j = roundEven n d ∨ roundEven n d % 2 = 0) := by
  have heven := roundEven_even_of_half (n := n) hd
  obtain ⟨hlo, hhi⟩ := roundEven_dist (n := n) hd
  generalize roundEven n d = r at *
  zify at heven hlo hhi
  have hhalf : 2 * |(n : Int) - d * r| ≤ d := by
    rcases abs_cases ((n : Int) - d * r) with ⟨e, _⟩ | ⟨e, _⟩ <;> rw [e] <;> linarith
  by_cases hj : j = r
  · subst hj
    exact ⟨le_rfl, fun _ => .inl rfl⟩
  · have hstep : (d : Int) ≤ |(d : Int) * r - d * j| := by
      rw [← mul_sub, abs_mul, Nat.abs_cast]
      exact le_mul_of_one_le_right (by positivity)
        (Int.one_le_abs (sub_ne_zero.mpr (by exact_mod_cast Ne.symm hj)))
    have htri : |(d : Int) * r - d * j| ≤ |(n : Int) - d * j| + |(n : Int) - d * r| := by
      have := abs_sub ((n : Int) - d * j) (n - d * r)
      rwa [sub_sub_sub_cancel_left] at this
    refine ⟨by linarith, fun heq => .inr ?_⟩
    have htie : 2 * |(n : Int) - d * r| = d := by linarith
    zify
    apply heven
    rcases abs_cases ((n : Int) - d * r) with ⟨e, _⟩ | ⟨e, _⟩ <;> rw [e] at htie
    · exact .inl (by linarith)
    · exact .inr (by linarith)

/-! ### Rounding to a magnitude -/

/-- A magnitude lies on the grid of a given last place, or below the normal range of that grid. -/
theorem magUnits_dvd_or_lt (e : Fin 2047) (f : BitVec 52) (k : Nat) :
    2 ^ k ∣ magUnits e f ∨ (k ≠ 0 ∧ magUnits e f < 2 ^ 52 * 2 ^ k) := by
  have hf := f.isLt
  by_cases hk : k = 0
  · exact .inl (by simp [hk])
  · unfold magUnits
    split
    · exact .inr ⟨hk, lt_of_lt_of_le hf (Nat.le_mul_of_pos_right _ (Nat.two_pow_pos k))⟩
    · by_cases hle : k ≤ e.val - 1
      · exact .inl (Dvd.dvd.mul_left (Nat.pow_dvd_pow 2 hle) _)
      · refine .inr ⟨hk, ?_⟩
        calc (2 ^ 52 + f.toNat) * 2 ^ (e.val - 1)
            < 2 ^ 53 * 2 ^ (e.val - 1) :=
              Nat.mul_lt_mul_of_pos_right (by omega) (Nat.two_pow_pos _)
          _ = 2 ^ 52 * 2 ^ (e.val - 1 + 1) := by rw [Nat.pow_succ']; ring
          _ ≤ 2 ^ 52 * 2 ^ k :=
              Nat.mul_le_mul_left _ (Nat.pow_le_pow_right (by decide) (by omega))

/-- The rounded magnitude of n / d units, below overflow: the rounded significand times its last
place. -/
def roundedUnits (n d : Nat) : Nat := roundEven n (d * 2 ^ ulpShift n d) * 2 ^ ulpShift n d

/-- Below n, the nearer number is the larger. -/
theorem abs_natCast_sub_lt_of_lt_of_le {n a b : Nat} (hab : a < b) (hbn : b ≤ n) :
    |(n : Int) - b| < |(n : Int) - a| := by
  rw [abs_of_nonneg (by omega), abs_of_nonneg (by omega)]
  omega

/-- No magnitude is nearer to n / d than the rounded one, and at a tie the rounded significand is
even. -/
theorem roundedUnits_nearest {n d : Nat} (hd : 0 < d) (e : Fin 2047) (f : BitVec 52) :
    |(n : Int) - (d * roundedUnits n d : Nat)| ≤ |(n : Int) - (d * magUnits e f : Nat)| ∧
      (|(n : Int) - (d * roundedUnits n d : Nat)| = |(n : Int) - (d * magUnits e f : Nat)| →
        magUnits e f = roundedUnits n d ∨ roundEven n (d * 2 ^ ulpShift n d) % 2 = 0) := by
  have hnormal := le_div_ulpShift (n := n) (d := d)
  rw [roundedUnits]
  generalize ulpShift n d = k at *
  have hgrid (j : Nat) : ((d * (j * 2 ^ k) : Nat) : Int) = (d * 2 ^ k : Nat) * (j : Nat) := by
    push_cast
    ring
  have hpos : 0 < d * 2 ^ k := Nat.mul_pos hd (Nat.two_pow_pos k)
  obtain ⟨j, hj⟩ | ⟨hk, hlt⟩ := magUnits_dvd_or_lt e f k
  · rw [hj, Nat.mul_comm _ j, hgrid, hgrid]
    obtain ⟨hle, htie⟩ := roundEven_nearest (n := n) hpos j
    exact ⟨hle, fun heq => (htie heq).imp_left (congrArg (· * _))⟩
  · have hn : d * (2 ^ 52 * 2 ^ k) ≤ n := by
      have h := (Nat.le_div_iff_mul_le hpos).mp (hnormal hk)
      rwa [Nat.mul_left_comm] at h
    have hfar := abs_natCast_sub_lt_of_lt_of_le (Nat.mul_lt_mul_of_pos_left hlt hd) hn
    have hnear := (roundEven_nearest (n := n) hpos (2 ^ 52)).1
    rw [← hgrid, ← hgrid] at hnear
    exact ⟨(hnear.trans_lt hfar).le, fun heq => absurd heq (hnear.trans_lt hfar).ne⟩

/-! ### Overflow -/

/-- Below binade 2045 the rounded significand is in range, and so is the fraction. -/
theorem not_overflow_of_ulpShift_lt {n d : Nat} (hd : 0 < d) (hk : ulpShift n d < 2045) :
    roundRank n d < 2047 * 2 ^ 52 ∧ n < (2 ^ 54 - 1) * (d * 2 ^ 2044) := by
  have hsig := significand_le n d
  have hpos : 0 < d * 2 ^ ulpShift n d := Nat.mul_pos hd (Nat.two_pow_pos _)
  have hdist := (roundEven_dist (n := n) hpos).1
  have hmul := Nat.mul_le_mul_left (d * 2 ^ ulpShift n d) hsig
  have hscale : d * 2 ^ ulpShift n d ≤ d * 2 ^ 2044 := by
    gcongr <;> omega
  generalize d * 2 ^ 2044 = u at *
  constructor
  · rw [roundRank]
    omega
  · omega

/-- Above binade 2045 the rounded significand is past the range, and so is the fraction. -/
theorem overflow_of_lt_ulpShift {n d : Nat} (hd : 0 < d) (hk : 2045 < ulpShift n d) :
    2047 * 2 ^ 52 ≤ roundRank n d ∧ (2 ^ 54 - 1) * (d * 2 ^ 2044) ≤ n := by
  have hsig := le_significand (n := n) (d := d) (by omega)
  have hpos : 0 < d * 2 ^ ulpShift n d := Nat.mul_pos hd (Nat.two_pow_pos _)
  have hn := (Nat.le_div_iff_mul_le hpos).mp (le_div_ulpShift (n := n) (d := d) (by omega))
  have hscale : d * 2 ^ 2044 * 2 ^ 2 ≤ d * 2 ^ ulpShift n d := by
    rw [← pow_mul_pow_sub 2 (show 2044 ≤ ulpShift n d by omega), ← Nat.mul_assoc]
    exact Nat.mul_le_mul_left _ (Nat.pow_le_pow_right two_pos (by omega))
  generalize d * 2 ^ 2044 = u at *
  constructor
  · rw [roundRank]
    omega
  · omega

/-- In the top binade the rounded significand carries into the next power of two exactly from halfway
between it and its predecessor, which is odd. -/
theorem le_roundEven_iff_of_carry {n u : Nat} (hu : 0 < u) (hle : roundEven n (u * 2) ≤ 2 ^ 53) :
    2 ^ 53 ≤ roundEven n (u * 2) ↔ (2 ^ 54 - 1) * u ≤ n := by
  obtain ⟨hlo, hhi⟩ := roundEven_dist (n := n) (Nat.mul_pos hu two_pos)
  constructor
  · intro h
    have hmul := Nat.mul_le_mul_left (u * 2) h
    omega
  · intro h
    by_contra hlt
    have hmul := Nat.mul_le_mul_left (u * 2) (show roundEven n (u * 2) ≤ 2 ^ 53 - 1 by omega)
    have hodd : roundEven n (u * 2) = 2 ^ 53 - 1 := by
      refine le_antisymm (by omega) (Nat.le_of_mul_le_mul_left ?_ (Nat.mul_pos hu two_pos))
      omega
    have heven := roundEven_even_of_half (n := n) (Nat.mul_pos hu two_pos) (.inl (by omega))
    omega

/-- Rounding overflows exactly from 2^2098 - 2^2044 units on: the largest finite magnitude and half
its last place. -/
theorem le_roundRank_iff {n d : Nat} (hd : 0 < d) :
    2047 * 2 ^ 52 ≤ roundRank n d ↔ (2 ^ 54 - 1) * (d * 2 ^ 2044) ≤ n := by
  rcases Nat.lt_trichotomy (ulpShift n d) 2045 with hk | hk | hk
  · obtain ⟨hrank, hn⟩ := not_overflow_of_ulpShift_lt hd hk
    exact iff_of_false (by omega) (Nat.not_le.mpr hn)
  · have hscale : d * 2 ^ ulpShift n d = d * 2 ^ 2044 * 2 := by
      rw [hk, Nat.mul_assoc, ← Nat.pow_succ]
    have hu : 0 < d * 2 ^ 2044 := by positivity
    have hle := significand_le n d
    rw [roundRank, hscale, hk]
    rw [hscale] at hle
    generalize d * 2 ^ 2044 = u at *
    rw [← le_roundEven_iff_of_carry hu hle]
    omega
  · obtain ⟨hrank, hn⟩ := overflow_of_lt_ulpShift hd hk
    exact iff_of_true hrank hn

/-! ### Signs -/

/-- A magnitude with a sign. -/
def signedUnits (neg : Bool) (m : Nat) : Int := if neg then -m else m

theorem unitsOf_finite (neg : Bool) (e : Fin 2047) (f : BitVec 52) :
    unitsOf (.finite neg e f) = signedUnits neg (magUnits e f) := rfl

theorem mul_signedUnits (neg : Bool) (d m : Nat) :
    (d : Int) * signedUnits neg m = signedUnits neg (d * m) := by
  cases neg <;> simp [signedUnits]

theorem signedUnits_mul (a b : Bool) (m m' : Nat) :
    signedUnits a m * signedUnits b m' = signedUnits (a ^^ b) (m' * m) := by
  cases a <;> cases b <;> simp [signedUnits, mul_comm]

theorem signedUnits_div (a b : Bool) (m m' : Nat) :
    (signedUnits a m : ℚ) / signedUnits b m' = (signedUnits (a ^^ b) m : ℚ) / m' := by
  cases a <;> cases b <;> simp [signedUnits, neg_div, div_neg]

theorem signedUnits_natAbs (u : Int) : signedUnits (u < 0) u.natAbs = u := by
  rcases lt_or_ge u 0 with h | h
  · rw [signedUnits, decide_eq_true h, if_pos rfl, Int.ofNat_natAbs_of_nonpos h.le, neg_neg]
  · rw [signedUnits, decide_eq_false (not_lt.mpr h), if_neg Bool.false_ne_true,
      Int.natAbs_of_nonneg h]

theorem abs_signedUnits (neg : Bool) (m : Nat) : |signedUnits neg m| = m := by
  cases neg <;> simp [signedUnits]

theorem signedUnits_neg_iff {neg : Bool} {m : Nat} (hm : 0 < m) :
    signedUnits neg m < 0 ↔ neg = true := by
  cases neg
  · simp [signedUnits]
  · simpa [signedUnits] using hm

theorem abs_signedUnits_sub_same (neg : Bool) (n m : Nat) :
    |signedUnits neg n - signedUnits neg m| = |(n : Int) - m| := by
  cases neg
  · rfl
  · rw [signedUnits, signedUnits, if_pos rfl, if_pos rfl, neg_sub_neg, abs_sub_comm]

theorem abs_signedUnits_sub_of_ne {neg neg' : Bool} (h : neg' ≠ neg) (n m : Nat) :
    |signedUnits neg n - signedUnits neg' m| = n + m := by
  have hnonneg : (0 : Int) ≤ n + m := by omega
  obtain rfl := Bool.eq_not_of_ne h
  cases neg
  · rw [← abs_of_nonneg hnonneg, ← sub_neg_eq_add]
    rfl
  · rw [← abs_of_nonneg hnonneg, ← abs_neg ((n : Int) + m), neg_add']
    rfl

/-- With its sign, the rounded magnitude is nearest among the finite values: one of the other sign is
no nearer than zero is. -/
theorem signedUnits_roundedUnits_nearest (neg : Bool) {n d : Nat} (hd : 0 < d) {y : F64}
    (hy : isFinite y = true) :
    |signedUnits neg n - d * signedUnits neg (roundedUnits n d)| ≤
        |signedUnits neg n - d * unitsOf y| ∧
      (|signedUnits neg n - d * signedUnits neg (roundedUnits n d)| =
          |signedUnits neg n - d * unitsOf y| →
        unitsOf y = signedUnits neg (roundedUnits n d) ∨
          roundEven n (d * 2 ^ ulpShift n d) % 2 = 0) := by
  cases y with
  | nan => cases hy
  | inf _ => cases hy
  | finite neg' e f =>
    rw [unitsOf_finite, mul_signedUnits, mul_signedUnits, abs_signedUnits_sub_same]
    by_cases hsign : neg' = neg
    · subst hsign
      rw [abs_signedUnits_sub_same]
      obtain ⟨hle, htie⟩ := roundedUnits_nearest hd e f
      exact ⟨hle, fun heq => (htie heq).imp_left (congrArg (signedUnits neg'))⟩
    · rw [abs_signedUnits_sub_of_ne hsign]
      obtain ⟨hle, htie⟩ := roundedUnits_nearest (n := n) hd 0 0
      have hzero : magUnits 0 0 = 0 := rfl
      rw [hzero, Nat.mul_zero, Nat.cast_zero, sub_zero, Nat.abs_cast] at hle htie
      refine ⟨by omega, fun heq => ?_⟩
      have hm : magUnits e f = 0 := by
        rcases Nat.mul_eq_zero.mp (show d * magUnits e f = 0 by omega) with h | h
        · omega
        · exact h
      rw [hm] at heq ⊢
      refine (htie (by simpa using heq)).imp_left fun h => ?_
      rw [← h]
      cases neg <;> cases neg' <;> rfl

/-! ### From units to rationals -/

/-- The distance from a fraction of units to a value, brought to one denominator. -/
theorem abs_sub_valueOf {d : Nat} (hd : 0 < d) (u : Int) (x : F64) :
    |(u : ℚ) / (d * 2 ^ 1074) - valueOf x| =
      ((|u - d * unitsOf x| : Int) : ℚ) / (d * 2 ^ 1074) := by
  have hunit : (0 : ℚ) < 2 ^ 1074 := by positivity
  have hd' : (0 : ℚ) < d := by exact_mod_cast hd
  rw [valueOf]
  generalize (2 : ℚ) ^ 1074 = p at *
  have hcommon : (u : ℚ) / (d * p) - unitsOf x / p = ((u - d * unitsOf x : Int) : ℚ) / (d * p) := by
    push_cast
    field_simp
  rw [hcommon, abs_div, abs_of_pos (mul_pos hd' hunit), Int.cast_abs]

/-- The overflow bound in units of a fraction. -/
theorem overflowBound_le_iff {d : Nat} (hd : 0 < d) (neg : Bool) (n : Nat) :
    overflowBound ≤ |(signedUnits neg n : ℚ) / (d * 2 ^ 1074)| ↔
      (2 ^ 54 - 1) * (d * 2 ^ 2044) ≤ n := by
  have hd' : (0 : ℚ) < d := by exact_mod_cast hd
  have hden : (0 : ℚ) < d * 2 ^ 1074 := by positivity
  have hbound : overflowBound * (d * 2 ^ 1074) = (2 ^ 54 - 1) * (d * 2 ^ 2044) := by
    have h1 : (2 : ℚ) ^ 1024 = 2 ^ 54 * 2 ^ 970 := by rw [← pow_add]
    have h2 : (2 : ℚ) ^ 2044 = 2 ^ 970 * 2 ^ 1074 := by rw [← pow_add]
    rw [overflowBound, h1, h2]
    generalize (2 : ℚ) ^ 970 = a, (2 : ℚ) ^ 1074 = p
    ring
  rw [abs_div, abs_of_pos hden, ← Int.cast_abs, abs_signedUnits, le_div_iff₀ hden, hbound]
  rw [← Nat.cast_le (α := ℚ), Nat.cast_mul, Nat.cast_mul, Nat.cast_pow, Nat.cast_ofNat,
    show ((2 ^ 54 - 1 : Nat) : ℚ) = 2 ^ 54 - 1 by norm_num, Int.cast_natCast]

/-- One rounding: `roundMag` answers the exact fraction rounded to nearest even. -/
theorem roundMag_roundsTo (neg : Bool) (n : Nat) {d : Nat} (hd : 0 < d) :
    RoundsTo ((signedUnits neg n : ℚ) / (d * 2 ^ 1074)) (roundMag neg n d) := by
  have hd' : (0 : ℚ) < d := by exact_mod_cast hd
  have hden : (0 : ℚ) < d * 2 ^ 1074 := by positivity
  rw [RoundsTo, ← not_le, overflowBound_le_iff hd, ← le_roundRank_iff hd]
  obtain ⟨hover, heq⟩ | ⟨hfin, e, f, heq, hmag, hodd⟩ := roundMag_cases neg n d
  · refine ⟨fun h => absurd hover h, fun _ => ?_⟩
    have hn : 0 < n := by
      have := (le_roundRank_iff hd).mp hover
      have : 0 < d * 2 ^ 2044 := by positivity
      omega
    have hsign : (signedUnits neg n : ℚ) / (d * 2 ^ 1074) < 0 ↔ neg = true := by
      rw [div_lt_iff₀ hden, zero_mul, ← Int.cast_zero, Int.cast_lt, signedUnits_neg_iff hn]
    rw [heq]
    simp [hsign]
  · refine ⟨fun _ => ?_, fun h => absurd h (by omega)⟩
    rw [heq]
    refine ⟨rfl, fun y hy => ?_⟩
    have hunits : unitsOf (.finite neg e f) = signedUnits neg (roundedUnits n d) := by
      rw [unitsOf_finite, hmag, roundedUnits]
    obtain ⟨hle, htie⟩ := signedUnits_roundedUnits_nearest neg (n := n) hd hy
    rw [abs_sub_valueOf hd, abs_sub_valueOf hd, hunits, div_le_div_iff_of_pos_right hden,
      div_left_inj' hden.ne', Int.cast_le, Int.cast_inj]
    refine ⟨hle, fun h => (htie h).imp (fun hy => ?_) fun heven => ?_⟩
    · rw [valueOf, valueOf, hunits, hy]
    · rw [evenSignificand, hodd, heven]
      rfl

end Sys2Proof.Machine
end

section
/-! PROOF. The binary64 operations of Machine/Float.lean (00_scope.md R10): each forms its exact result
as one fraction of units and rounds it once, and an integer below 2^53 needs no rounding. -/

namespace Sys2Proof.Machine

/-! ### The operations -/

theorem unitsPerOne_eq : unitsPerOne = 2 ^ 1074 := by
  delta unitsPerOne
  with_reducible rfl

theorem unitsPerOne_cast : (unitsPerOne : ℚ) = 2 ^ 1074 := by
  rw [unitsPerOne_eq, Nat.cast_pow, Nat.cast_ofNat]

theorem valueOf_finite (neg : Bool) (e : Fin 2047) (f : BitVec 52) :
    valueOf (.finite neg e f) = (signedUnits neg (magUnits e f) : ℚ) / 2 ^ 1074 := rfl

theorem isZeroMag_eq_false {e : Fin 2047} {f : BitVec 52} (h : 0 < magUnits e f) :
    isZeroMag e f = false := by
  rw [isZeroMag, decide_eq_false h.ne']

theorem eq_finite_of_isFinite {x : F64} (h : isFinite x = true) :
    ∃ neg e f, x = .finite neg e f := by
  cases x with
  | nan => cases h
  | inf _ => cases h
  | finite neg e f => exact ⟨neg, e, f, rfl⟩

/-- Rounding a sum is rounding its magnitude; an exact zero takes the sign it is given. -/
theorem roundUnits_eq_roundMag (negZero : Bool) (u : Int) :
    ∃ neg, signedUnits neg u.natAbs = u ∧ roundUnits negZero u = roundMag neg u.natAbs 1 := by
  by_cases hu : u = 0
  · subst hu
    exact ⟨negZero, by cases negZero <;> rfl, by
      rw [roundUnits, if_pos rfl, Int.natAbs_zero, roundMag_zero]⟩
  · exact ⟨decide (u < 0), signedUnits_natAbs u, by rw [roundUnits, if_neg hu]⟩

theorem roundUnits_roundsTo (negZero : Bool) (u : Int) :
    RoundsTo ((u : ℚ) / 2 ^ 1074) (roundUnits negZero u) := by
  obtain ⟨neg, hu, heq⟩ := roundUnits_eq_roundMag negZero u
  have h := roundMag_roundsTo neg u.natAbs one_pos
  rwa [← heq, hu, Nat.cast_one, one_mul] at h

theorem fadd_roundsTo {x y : F64} (hx : isFinite x = true) (hy : isFinite y = true) :
    RoundsTo (valueOf x + valueOf y) (fadd x y) := by
  obtain ⟨a, e, f, rfl⟩ := eq_finite_of_isFinite hx
  obtain ⟨b, e', f', rfl⟩ := eq_finite_of_isFinite hy
  rw [valueOf, valueOf, ← add_div, ← Int.cast_add]
  exact roundUnits_roundsTo _ _

theorem isFinite_fneg (x : F64) : isFinite (fneg x) = isFinite x := by
  cases x <;> rfl

theorem valueOf_fneg (x : F64) : valueOf (fneg x) = -valueOf x := by
  have hunits : unitsOf (fneg x) = -unitsOf x := by
    cases x with
    | nan => rfl
    | inf _ => rfl
    | finite neg e f => cases neg <;> simp [fneg, unitsOf]
  rw [valueOf, valueOf, hunits, Int.cast_neg, neg_div]

theorem fsub_roundsTo {x y : F64} (hx : isFinite x = true) (hy : isFinite y = true) :
    RoundsTo (valueOf x - valueOf y) (fsub x y) := by
  rw [sub_eq_add_neg, ← valueOf_fneg]
  exact fadd_roundsTo hx ((isFinite_fneg y).trans hy)

theorem fmul_roundsTo {x y : F64} (hx : isFinite x = true) (hy : isFinite y = true) :
    RoundsTo (valueOf x * valueOf y) (fmul x y) := by
  obtain ⟨a, e, f, rfl⟩ := eq_finite_of_isFinite hx
  obtain ⟨b, e', f', rfl⟩ := eq_finite_of_isFinite hy
  have hpos : 0 < unitsPerOne := by
    rw [unitsPerOne_eq]
    positivity
  have h := roundMag_roundsTo (a ^^ b) (magUnits e' f' * magUnits e f) hpos
  rwa [← signedUnits_mul, Int.cast_mul, unitsPerOne_cast, ← div_mul_div_comm] at h

theorem fdiv_roundsTo {x y : F64} (hx : isFinite x = true) (hy : isFinite y = true)
    (hne : valueOf y ≠ 0) : RoundsTo (valueOf x / valueOf y) (fdiv x y) := by
  obtain ⟨a, e, f, rfl⟩ := eq_finite_of_isFinite hx
  obtain ⟨b, e', f', rfl⟩ := eq_finite_of_isFinite hy
  have hpos : 0 < magUnits e' f' := by
    refine Nat.pos_of_ne_zero fun h0 => hne ?_
    rw [valueOf_finite, h0]
    cases b <;> simp [signedUnits]
  have hdiv : fdiv (.finite a e f) (.finite b e' f') =
      roundMag (a ^^ b) (unitsPerOne * magUnits e f) (magUnits e' f') := by
    rw [fdiv, isZeroMag_eq_false hpos]
    rfl
  have h := roundMag_roundsTo (a ^^ b) (unitsPerOne * magUnits e f) hpos
  rw [hdiv]
  have hunit : (unitsPerOne : ℚ) ≠ 0 := by
    rw [unitsPerOne_cast]
    exact pow_ne_zero _ two_ne_zero
  rwa [← mul_signedUnits, Int.cast_mul, Int.cast_natCast, ← unitsPerOne_cast,
    mul_comm (unitsPerOne : ℚ), mul_div_mul_right _ _ hunit, ← signedUnits_div,
    ← div_div_div_cancel_right₀ hunit, unitsPerOne_cast] at h

/-- Settles O42: each operation rounds its exact result once. -/
theorem operationsRoundToNearestEven : Obligations.OperationsRoundToNearestEven := fun _ _ hx hy =>
  ⟨fadd_roundsTo hx hy, fsub_roundsTo hx hy, fmul_roundsTo hx hy, fdiv_roundsTo hx hy⟩

/-- Settles O41: an integer below 2^53 times 2^1074 units is a significand times a power of two. -/
theorem integersConvertExactly : Obligations.IntegersConvertExactly := by
  intro n hn
  have hm : n.natAbs < 2 ^ 53 := by
    rw [Int.abs_eq_natAbs] at hn
    omega
  obtain ⟨e, f, heq, hmag⟩ := roundMag_exact (n < 0) (j := 1074) one_pos hm (by decide)
  have htoF : toF n = .finite (n < 0) e f := by
    rw [toF, unitsPerOne_eq, Nat.mul_comm, ← heq, Nat.one_mul]
  refine ⟨by rw [htoF]; rfl, ?_⟩
  rw [htoF, valueOf_finite, hmag, Nat.mul_comm, ← mul_signedUnits, signedUnits_natAbs, Int.cast_mul,
    Int.cast_natCast, Nat.cast_pow, Nat.cast_ofNat]
  exact mul_div_cancel_left₀ _ (pow_ne_zero _ two_ne_zero)

end Sys2Proof.Machine
end

section
/-! PROOF. The synthesis state never depends on the filter stage, on `fault` or on earlier results
(00_scope.md R5, 44_filter.md R218): every operation on the state keeps `SameSynthesis` of two
states. -/

namespace Sys2Proof.Machine

/-! ### The operations that write no synthesis state -/

theorem SameSynthesis.emit {s t : State} (h : SameSynthesis s t) (r r' : Result) :
    SameSynthesis (s.emit r) (t.emit r') := h

theorem SameSynthesis.raise {s t : State} (h : SameSynthesis s t) (r r' : Fault) :
    SameSynthesis (s.raise r) (t.raise r') := h

theorem SameSynthesis.setFilt {s t : State} (h : SameSynthesis s t) (f f' : FilterState) :
    SameSynthesis (s.setFilt f) (t.setFilt f') := h

/-! ### The operations that write it -/

theorem SameSynthesis.voice {s t : State} (h : SameSynthesis s t) (v : Fin Config.numVoices) :
    t.voice v = s.voice v := by
  obtain ⟨hvoices, _, _⟩ := h
  rw [State.voice, State.voice, hvoices]

theorem SameSynthesis.writeVoice {s t : State} (h : SameSynthesis s t) (v : BitVec 3)
    (V : Voice → Voice) : SameSynthesis (s.writeVoice v V) (t.writeVoice v V) := by
  obtain ⟨k, hk, hs⟩ | ⟨hv, hs⟩ := s.writeVoice_cases v V
  · rw [hs, t.writeVoice_of_index V hk]
    have ⟨hvoices, hnoise, hsn⟩ := h
    exact ⟨by simp [h.voice k, hvoices], hnoise, hsn⟩
  · obtain ⟨k, hk, _⟩ | ⟨_, ht⟩ := t.writeVoice_cases v V
    · exact absurd (hk ▸ k.isLt) hv
    · rw [hs, ht]
      exact h.raise _ _

theorem SameSynthesis.writeNoise {s t : State} (h : SameSynthesis s t) (N : Noise → Noise) :
    SameSynthesis (s.writeNoise N) (t.writeNoise N) := by
  obtain ⟨hvoices, hnoise, hsn⟩ := h
  exact ⟨hvoices, congrArg N hnoise, hsn⟩

theorem SameSynthesis.resetSynth (s t : State) : SameSynthesis s.resetSynth t.resetSynth :=
  ⟨rfl, rfl, rfl⟩

/-! ### The tick -/

theorem SameSynthesis.coreTick_fst {s t : State} (h : SameSynthesis s t) :
    SameSynthesis (coreTick s).1 (coreTick t).1 := by
  have ⟨_, hnoise, hsn⟩ := h
  refine ⟨State.voices_ext fun v => ?_, ?_, ?_⟩
  · rw [coreTick_voice, coreTick_voice, h.voice v, hsn]
  · rw [coreTick_noise, coreTick_noise, hnoise]
  · rw [coreTick_sampleNumber, coreTick_sampleNumber, hsn]

theorem SameSynthesis.coreTick_snd {s t : State} (h : SameSynthesis s t) :
    (coreTick t).2 = (coreTick s).2 := by
  have ⟨_, hnoise, hsn⟩ := h
  simp only [coreTick_frame, h.voice, hnoise, hsn]

theorem SameSynthesis.monoTick {s t : State} (h : SameSynthesis s t) (k : F64) :
    SameSynthesis (monoTick k s) (monoTick k t) :=
  (h.coreTick_fst.setFilt _ _).emit _ _

theorem SameSynthesis.stereoTick {s t : State} (h : SameSynthesis s t) (k : F64) :
    SameSynthesis (stereoTick k s) (stereoTick k t) :=
  (h.coreTick_fst.setFilt _ _).emit _ _

theorem SameSynthesis.hphoneTick {s t : State} (h : SameSynthesis s t) (k kp : F64) :
    SameSynthesis (hphoneTick k kp s) (hphoneTick k kp t) :=
  (h.coreTick_fst.setFilt _ _).emit _ _

/-! ### Commands and runs -/

/-- Every command completes in both of two states with one synthesis state, and keeps it one. -/
theorem SameSynthesis.exists_exec {s t : State} (h : SameSynthesis s t) (i : Instr) :
    ∃ s' t', exec i s = .next s' ∧ exec i t = .next t' ∧ SameSynthesis s' t' := by
  cases i with
  | wrate v imm16 => exact ⟨_, _, rfl, rfl, h.writeVoice v _⟩
  | wwave v imm8 => exact ⟨_, _, rfl, rfl, h.writeVoice v _⟩
  | wvol v imm8 => exact ⟨_, _, rfl, rfl, h.writeVoice v _⟩
  | wnper imm8 => exact ⟨_, _, rfl, rfl, h.writeNoise _⟩
  | wnvol imm8 => exact ⟨_, _, rfl, rfl, h.writeNoise _⟩
  | wnwave imm8 => exact ⟨_, _, rfl, rfl, h.writeNoise _⟩
  | reset => exact ⟨_, _, rfl, rfl, (SameSynthesis.resetSynth s t).emit _ _⟩
  | frame => exact ⟨_, _, rfl, rfl, h.coreTick_fst.emit _ _⟩
  | sample => exact ⟨_, _, rfl, rfl, h.coreTick_fst.emit _ _⟩
  | mono => exact ⟨_, _, rfl, rfl, h.monoTick kDac⟩
  | stereo => exact ⟨_, _, rfl, rfl, h.stereoTick kDac⟩
  | hphone => exact ⟨_, _, rfl, rfl, h.hphoneTick kDac kPan⟩
  | sink ch =>
    refine ⟨_, _, rfl, rfl, ?_⟩
    split
    · exact h.monoTick kDac
    · split
      · exact h.stereoTick kDac
      · exact h.raise _ _

theorem runInstrs_cons_of_next {i : Instr} {s t : State} (h : exec i s = .next t)
    (is : List Instr) : runInstrs (i :: is) s = runInstrs is t := by
  rw [runInstrs, h]

theorem SameSynthesis.exists_runInstrs {s t : State} (h : SameSynthesis s t) (is : List Instr) :
    ∃ s' t', runInstrs is s = .next s' ∧ runInstrs is t = .next t' ∧
      SameSynthesis s' t' := by
  induction is generalizing s t with
  | nil => exact ⟨s, t, rfl, rfl, h⟩
  | cons i is ih =>
    obtain ⟨s₁, t₁, hs, ht, h₁⟩ := h.exists_exec i
    rw [runInstrs_cons_of_next hs, runInstrs_cons_of_next ht]
    exact ih h₁

/-- Settles O60: runs keep `SameSynthesis`, and the frame of a tick reads nothing else. -/
theorem synthesisIgnoresFilterAndFault : Obligations.SynthesisIgnoresFilterAndFault := by
  intro is s s' h
  obtain ⟨t, t', hs, hs', ht⟩ := h.exists_runInstrs is
  refine ⟨t, t', hs, hs', ht, ⟨_, _, rfl, rfl, ?_⟩, ⟨_, _, rfl, rfl, ?_⟩⟩
  · rw [State.emit_result, State.emit_result, ht.coreTick_snd]
  · rw [State.emit_result, State.emit_result, ht.coreTick_snd]

end Sys2Proof.Machine
end

section
/-! PROOF. The construction state (10_state.md R43): its filter histories are all +0.0. -/

namespace Sys2Proof.Machine

theorem historyOk_zeroF : HistoryOk zeroF := by
  have hval : valueOf zeroF = 0 := by
    rw [valueOf, show unitsOf zeroF = 0 by decide, Int.cast_zero, zero_div]
  refine ⟨rfl, by decide, ?_, ?_⟩
  · rw [hval]
    norm_num
  · rw [hval]
    norm_num

/-- Settles O53: every history and every slot is +0.0. -/
theorem filterHistoriesBoundedAtReset : Obligations.FilterHistoriesBoundedAtReset := by
  have hslot (j : Fin Config.delayLen) : (Vector.replicate Config.delayLen zeroF)[j] = zeroF :=
    Vector.getElem_replicate _
  refine ⟨historyOk_zeroF, historyOk_zeroF, historyOk_zeroF, historyOk_zeroF, historyOk_zeroF,
    historyOk_zeroF, historyOk_zeroF, fun j => ⟨?_, ?_⟩⟩
  · exact (hslot j).symm ▸ historyOk_zeroF
  · exact (hslot j).symm ▸ historyOk_zeroF

end Sys2Proof.Machine
end

section
/-! PROOF. What one command can do to the state, said once for all thirteen (10_state.md R40): to each
voice, to the noise unit, and to the rest. -/

namespace Sys2Proof.Machine

/-! ### The possible effects -/

/-- What the command `i`, at the sample number `sn`, can make of the registers `V` of voice `k`. -/
inductive VoiceEffect (i : Instr) (k : Fin Config.numVoices) (sn : Nat) (V : Voice) :
    Voice → Prop where
  | kept (hi : tickCommand i = false) : VoiceEffect i k sn V V
  | wrate (v : BitVec 3) (imm16 : BitVec 16) (hi : i = .wrate v imm16) (hv : v.toNat = k.val) :
      VoiceEffect i k sn V { V with targetRate := imm16 }
  | wwave (v : BitVec 3) (imm8 : BitVec 8) (hi : i = .wwave v imm8) (hv : v.toNat = k.val) :
      VoiceEffect i k sn V { V with wave := imm8 }
  | wvol (v : BitVec 3) (imm8 : BitVec 8) (hi : i = .wvol v imm8) (hv : v.toNat = k.val) :
      VoiceEffect i k sn V { V with vol := imm8 }
  | reset (hi : i = .reset) : VoiceEffect i k sn V Voice.initial
  | tick (hi : tickCommand i = true) : VoiceEffect i k sn V (V.tick sn)

/-- What the command `i` can make of the noise registers `N`. -/
inductive NoiseEffect (i : Instr) (N : Noise) : Noise → Prop where
  | kept (hi : tickCommand i = false) : NoiseEffect i N N
  | wnper (imm8 : BitVec 8) (hi : i = .wnper imm8) :
      NoiseEffect i N { N with nper := imm8, ncnt := 0 }
  | wnvol (imm8 : BitVec 8) (hi : i = .wnvol imm8) : NoiseEffect i N { N with nvol := imm8 }
  | wnwave (imm8 : BitVec 8) (hi : i = .wnwave imm8) : NoiseEffect i N { N with nwave := imm8 }
  | reset (hi : i = .reset) : NoiseEffect i N Noise.initial
  | tick (hi : tickCommand i = true) : NoiseEffect i N N.tick

/-- The commands that run a filter mode. -/
def filterCommand (i : Instr) : Bool := i ∈ [.mono, .stereo, .hphone, .sink 1, .sink 2]

/-- What the command `i` can make of the state `s`. -/
structure CommandEffect (i : Instr) (s t : State) : Prop where
  voice : ∀ k, VoiceEffect i k s.sampleNumber (s.voice k) (t.voice k)
  noise : NoiseEffect i s.noise t.noise
  sampleNumber : t.sampleNumber =
    if tickCommand i then s.sampleNumber + 1 else if i = .reset then 0 else s.sampleNumber
  filt : filterCommand i = false → t.filt = s.filt
  fault : t.fault = s.fault ∨ (t.fault = true ∧ ∃ r, t.result = .fault r)

/-! ### The effect of each kind of command -/

theorem not_tick_of_writeCommand {i : Instr} (hi : writeCommand i = true) :
    tickCommand i = false ∧ i ≠ .reset := by
  cases i <;> simp_all [writeCommand, tickCommand]

theorem commandEffect_raise {i : Instr} (hi : tickCommand i = false) (hr : i ≠ .reset) (s : State)
    (reason : Fault) : CommandEffect i s (s.raise reason) where
  voice _ := .kept hi
  noise := .kept hi
  sampleNumber := by simp [hi, hr]
  filt _ := rfl
  fault := .inr ⟨rfl, reason, rfl⟩

theorem commandEffect_writeVoice {i : Instr} (hi : writeCommand i = true) (s : State) (v : BitVec 3)
    (f : Voice → Voice)
    (hf : ∀ k : Fin Config.numVoices, v.toNat = k.val →
      ∀ V, VoiceEffect i k s.sampleNumber V (f V)) :
    CommandEffect i s (s.writeVoice v f) := by
  obtain ⟨htick, hreset⟩ := not_tick_of_writeCommand hi
  obtain ⟨k, hk, heq⟩ | ⟨_, heq⟩ := s.writeVoice_cases v f
  · rw [heq]
    refine ⟨fun u => ?_, .kept htick, by simp [htick, hreset], fun _ => rfl, .inl rfl⟩
    rw [State.emit_voice]
    by_cases hu : u = k
    · rw [hu, State.setVoice_voice_self]
      exact hf k hk _
    · rw [State.setVoice_voice_ne s _ hu]
      exact .kept htick
  · rw [heq]
    exact commandEffect_raise htick hreset s _

theorem commandEffect_writeNoise {i : Instr} (hi : writeCommand i = true) (s : State)
    (f : Noise → Noise) (hf : NoiseEffect i s.noise (f s.noise)) :
    CommandEffect i s (s.writeNoise f) := by
  obtain ⟨htick, hreset⟩ := not_tick_of_writeCommand hi
  rw [State.writeNoise]
  exact ⟨fun _ => .kept htick, hf, by simp [htick, hreset], fun _ => rfl, .inl rfl⟩

theorem commandEffect_reset (s : State) : CommandEffect .reset s (s.resetSynth.emit .none) where
  voice k := by
    have hinit : (s.resetSynth.emit .none).voice k = Voice.initial := Vector.getElem_replicate _
    rw [hinit]
    exact .reset rfl
  noise := .reset rfl
  sampleNumber := rfl
  filt _ := rfl
  fault := .inl rfl

/-- A tick command writes the synthesis state as `coreTick` does; what it does to the filter stage is
left to each mode. -/
theorem commandEffect_tick {i : Instr} (hi : tickCommand i = true) {s t : State}
    (hsyn : SameSynthesis (coreTick s).1 t) (hfault : t.fault = s.fault)
    (hfilt : filterCommand i = false → t.filt = s.filt) : CommandEffect i s t := by
  have ⟨_, hnoise, hsn⟩ := hsyn
  refine ⟨fun k => ?_, ?_, ?_, hfilt, .inl hfault⟩
  · rw [hsyn.voice k, coreTick_voice]
    exact .tick hi
  · rw [hnoise, coreTick_noise]
    exact .tick hi
  · rw [hsn, coreTick_sampleNumber, if_pos hi]

theorem commandEffect_monoTick {i : Instr} (hi : tickCommand i = true) (hf : filterCommand i = true)
    (k : F64) (s : State) : CommandEffect i s (monoTick k s) :=
  commandEffect_tick hi ⟨rfl, rfl, rfl⟩ (coreTick_fault s) fun h => absurd hf (by simp [h])

theorem commandEffect_stereoTick {i : Instr} (hi : tickCommand i = true)
    (hf : filterCommand i = true) (k : F64) (s : State) : CommandEffect i s (stereoTick k s) :=
  commandEffect_tick hi ⟨rfl, rfl, rfl⟩ (coreTick_fault s) fun h => absurd hf (by simp [h])

theorem commandEffect_sink (ch : BitVec 16) (s : State) :
    ∃ t, exec (.sink ch) s = .next t ∧ CommandEffect (.sink ch) s t := by
  refine ⟨_, rfl, ?_⟩
  split
  next h => exact h ▸ commandEffect_monoTick rfl rfl kDac s
  next h1 =>
    split
    next h => exact h ▸ commandEffect_stereoTick rfl rfl kDac s
    next h2 =>
      have hi : tickCommand (.sink ch) = false := by simpa [tickCommand] using ⟨h1, h2⟩
      exact commandEffect_raise hi (by simp) s _

/-- Every command completes in every state, with one of its possible effects. -/
theorem exists_exec_effect (i : Instr) (s : State) :
    ∃ t, exec i s = .next t ∧ CommandEffect i s t := by
  cases i with
  | wrate v imm16 =>
    exact ⟨_, rfl, commandEffect_writeVoice rfl s v _ fun _ hv _ => .wrate v imm16 rfl hv⟩
  | wwave v imm8 =>
    exact ⟨_, rfl, commandEffect_writeVoice rfl s v _ fun _ hv _ => .wwave v imm8 rfl hv⟩
  | wvol v imm8 =>
    exact ⟨_, rfl, commandEffect_writeVoice rfl s v _ fun _ hv _ => .wvol v imm8 rfl hv⟩
  | wnper imm8 => exact ⟨_, rfl, commandEffect_writeNoise rfl s _ (.wnper imm8 rfl)⟩
  | wnvol imm8 => exact ⟨_, rfl, commandEffect_writeNoise rfl s _ (.wnvol imm8 rfl)⟩
  | wnwave imm8 => exact ⟨_, rfl, commandEffect_writeNoise rfl s _ (.wnwave imm8 rfl)⟩
  | reset => exact ⟨_, rfl, commandEffect_reset s⟩
  | frame =>
    exact ⟨_, rfl,
      commandEffect_tick rfl ⟨rfl, rfl, rfl⟩ (coreTick_fault s) fun _ => coreTick_filt s⟩
  | sample =>
    exact ⟨_, rfl,
      commandEffect_tick rfl ⟨rfl, rfl, rfl⟩ (coreTick_fault s) fun _ => coreTick_filt s⟩
  | mono => exact ⟨_, rfl, commandEffect_monoTick rfl rfl kDac s⟩
  | stereo => exact ⟨_, rfl, commandEffect_stereoTick rfl rfl kDac s⟩
  | hphone =>
    exact ⟨_, rfl, commandEffect_tick rfl ⟨rfl, rfl, rfl⟩ (coreTick_fault s) nofun⟩
  | sink ch => exact commandEffect_sink ch s

/-! ### The count of ticks -/

/-- Settles O39: each command of the run adds one if it ticks, nothing otherwise. -/
theorem sampleNumberCountsTicks : Obligations.SampleNumberCountsTicks := by
  intro is
  induction is with
  | nil => exact fun s _ => ⟨s, rfl, rfl⟩
  | cons i is ih =>
    intro s hreset
    rw [List.mem_cons, not_or] at hreset
    obtain ⟨hi, his⟩ := hreset
    obtain ⟨u, hu, heffect⟩ := exists_exec_effect i s
    obtain ⟨t, ht, hsn⟩ := ih u his
    refine ⟨t, (runInstrs_cons_of_next hu is).trans ht, ?_⟩
    rw [hsn, heffect.sampleNumber, if_neg (Ne.symm hi), List.filter_cons]
    split
    · rw [List.length_cons]
      omega
    · rfl

end Sys2Proof.Machine
end

section
/-! PROOF. The invariant of every reachable state (10_state.md R42): points 1 and 4 hold by the widths
of the fields, points 2 and 3 are about the noise unit alone. -/

namespace Sys2Proof.Machine

/-! ### The shift of the LFSR -/

/-- A shift moves bits 14:1 down by one and puts the feedback in bit 14. -/
theorem getLsbD_lfsrShift (periodic : Bool) (l : BitVec 15) {j : Nat} (hj : j < 15) :
    (lfsrShift periodic l).getLsbD j =
      if j = 14 then l.getLsbD 0 ^^ l.getLsbD (if periodic then 6 else 1) else l.getLsbD (j + 1) := by
  split
  next h =>
    subst h
    cases periodic <;> simp [lfsrShift]
  next h =>
    have hlow : j < 14 := by omega
    simp [lfsrShift, hlow, Nat.add_comm]

/-- A shift to 0 has every bit 0 before it: bits 14:1 move down, so the tap is 0, and bit 0 is the
feedback. -/
theorem lfsrShift_ne_zero (periodic : Bool) {l : BitVec 15} (hl : l ≠ 0) :
    lfsrShift periodic l ≠ 0 := by
  intro hzero
  have hbit (j : Nat) (hj : j < 15) := (getLsbD_lfsrShift periodic l hj).symm
  simp only [hzero, BitVec.ofNat_eq_ofNat, BitVec.getLsbD_zero] at hbit
  have hhigh (j : Nat) (hj : j < 14) : l.getLsbD (j + 1) = false := by
    simpa [hj.ne] using hbit j (by omega)
  have htap : l.getLsbD (if periodic then 6 else 1) = false := by
    cases periodic
    · exact hhigh 0 (by decide)
    · exact hhigh 5 (by decide)
  have hlow : l.getLsbD 0 = false := by simpa [htap] using hbit 14 (by decide)
  refine hl (BitVec.eq_of_getLsbD_eq fun j hj => ?_)
  rw [BitVec.ofNat_eq_ofNat, BitVec.getLsbD_zero]
  cases j with
  | zero => exact hlow
  | succ j => exact hhigh j (by omega)

/-! ### The noise unit -/

/-- Points 2 and 3 of R42, on the noise registers. -/
def Noise.Ok (N : Noise) : Prop := N.ncnt.toNat ≤ N.nper.toNat ∧ N.lfsr ≠ 0

theorem State.inv_iff (s : State) : s.Inv ↔ s.noise.Ok := by
  refine ⟨fun ⟨_, hcnt, hlfsr, _⟩ => ⟨hcnt, hlfsr⟩, fun ⟨hcnt, hlfsr⟩ =>
    ⟨fun v => ?_, hcnt, hlfsr, ?_⟩⟩
  · exact Nat.le_of_lt_succ (s.voice v).realRate.isLt
  · exact Nat.le_of_lt_succ s.filt.hpCur.isLt

theorem Noise.initial_ok : Noise.initial.Ok := ⟨le_rfl, by decide⟩

/-- Below the period, the 8-bit counter does not wrap. -/
theorem Noise.count_ncnt_of_lt {N : Noise} (h : N.ncnt.toNat < N.nper.toNat) :
    N.count.ncnt.toNat = N.ncnt.toNat + 1 := by
  have hne : N.ncnt ≠ N.nper := fun e => h.ne (congrArg BitVec.toNat e)
  have hlt := N.nper.isLt
  rw [Noise.count, if_neg hne, BitVec.toNat_add]
  exact Nat.mod_eq_of_lt (by simp; omega)

theorem Noise.count_lfsr_of_lt {N : Noise} (h : N.ncnt.toNat < N.nper.toNat) :
    N.count.lfsr = N.lfsr := by
  rw [Noise.count, if_neg fun e => h.ne (congrArg BitVec.toNat e)]

theorem Noise.count_of_eq {N : Noise} (h : N.ncnt = N.nper) :
    N.count = { N with ncnt := 0, lfsr := lfsrShift (periodicTap N.nwave) N.lfsr } := by
  rw [Noise.count, if_pos h]

theorem Noise.Ok.count {N : Noise} (h : N.Ok) : N.count.Ok := by
  obtain ⟨hcnt, hlfsr⟩ := h
  rcases hcnt.lt_or_eq with hlt | heq
  · refine ⟨?_, ?_⟩
    · rw [Noise.count_ncnt_of_lt hlt, Noise.count_nper]
      exact hlt
    · rwa [Noise.count_lfsr_of_lt hlt]
  · rw [Noise.count_of_eq (BitVec.eq_of_toNat_eq heq)]
    exact ⟨Nat.zero_le _, lfsrShift_ne_zero _ hlfsr⟩

theorem Noise.Ok.resetFlag {N : Noise} (h : N.Ok) : N.resetFlag.Ok := by
  obtain ⟨hcnt, hlfsr⟩ := h
  refine ⟨by simpa using hcnt, ?_⟩
  unfold Noise.resetFlag
  split
  · exact (by decide : (1 : BitVec 15) ≠ 0)
  · exact hlfsr

theorem Noise.Ok.foldl_subStep {p : Noise × Nat} (h : p.1.Ok) (is : List Nat) :
    (is.foldl Noise.subStep p).1.Ok := by
  induction is generalizing p with
  | nil => exact h
  | cons i is ih =>
    apply ih
    rw [Noise.subStep]
    dsimp only
    split
    · exact h
    · exact h.count

theorem Noise.Ok.tick {N : Noise} (h : N.Ok) : N.tick.Ok :=
  Noise.Ok.foldl_subStep (p := (N.resetFlag, 0)) h.resetFlag _

theorem NoiseEffect.ok {i : Instr} {N N' : Noise} (h : NoiseEffect i N N') (hok : N.Ok) : N'.Ok := by
  have ⟨_, hlfsr⟩ := hok
  cases h with
  | kept _ => exact hok
  | wnper imm8 _ => exact ⟨Nat.zero_le _, hlfsr⟩
  | wnvol imm8 _ => exact hok
  | wnwave imm8 _ => exact hok
  | reset _ => exact Noise.initial_ok
  | tick _ => exact hok.tick

/-! ### The state -/

/-- All one step can do: idle, run the command it takes, or refuse the word it takes. -/
theorem step_cases (s : State) :
    step s = .next s ∨
      ∃ w rest, s.pending = w :: rest ∧
        ((∃ i, decode w = .ok i ∧ step s = exec i { s with pending := rest }) ∨
          ∃ r, decode w = .error r ∧
            step s = .next (State.raise { s with pending := rest } .illegalCommand)) := by
  cases hp : s.pending with
  | nil => exact .inl (by rw [step, State.fetch_nil hp])
  | cons w rest =>
    refine .inr ⟨w, rest, rfl, ?_⟩
    cases hd : decode w with
    | ok i => exact .inl ⟨i, rfl, by simp only [step, State.fetch_cons hp, hd]⟩
    | error r => exact .inr ⟨r, rfl, by simp only [step, State.fetch_cons hp, hd]⟩

/-- Settles O56: a step idles, raises a fault, or has an effect of its command on the noise unit. -/
theorem invariantKeptByEveryStep : Obligations.InvariantKeptByEveryStep := by
  intro s hinv
  rw [State.inv_iff] at hinv
  simp only [State.inv_iff]
  obtain hidle | ⟨w, rest, _, ⟨i, _, hexec⟩ | ⟨r, _, hraise⟩⟩ := step_cases s
  · exact ⟨s, hidle, hinv⟩
  · obtain ⟨t, ht, heffect⟩ := exists_exec_effect i { s with pending := rest }
    exact ⟨t, hexec.trans ht, heffect.noise.ok hinv⟩
  · exact ⟨_, hraise, hinv⟩

/-- Settles O55: the noise unit starts with `lfsr` 1 and an empty counter. -/
theorem invariantHoldsAtReset : Obligations.InvariantHoldsAtReset :=
  (State.inv_iff _).mpr Noise.initial_ok

end Sys2Proof.Machine
end

section
/-! PROOF. The writers of each field (10_state.md R40), read off the possible effects of a command. -/

namespace Sys2Proof.Machine

/-! ### The flags a tick writes -/

theorem clearRst_of_not_rst {vol : BitVec 8} (h : rstFlag vol = false) : clearRst vol = vol := by
  refine BitVec.eq_of_getLsbD_eq fun j hj => ?_
  rw [clearRst, BitVec.getLsbD_and]
  by_cases h7 : j = 7
  · subst h7
    exact (Bool.and_false _).trans h.symm
  · have hlow : j < 7 := by omega
    have hmask : (0x7F : BitVec 8).getLsbD j = true := by interval_cases j <;> rfl
    rw [hmask, Bool.and_true]

theorem Noise.resetFlag_nvol (N : Noise) : N.resetFlag.nvol = clearRst N.nvol := by
  unfold Noise.resetFlag
  split
  · rfl
  next h => exact (clearRst_of_not_rst (Bool.eq_false_of_not_eq_true h)).symm

@[simp] theorem Voice.tick_targetRate (sn : Nat) (V : Voice) :
    (V.tick sn).targetRate = V.targetRate := by
  simp [Voice.tick]

theorem Voice.tick_vol (sn : Nat) (V : Voice) : (V.tick sn).vol = clearRst V.vol := by
  rw [Voice.tick]
  cases h : rstFlag (V.slew sn).vol with
  | true => rw [Voice.resetOrAdvance_of_rst h, Voice.slew_vol]
  | false =>
    rw [Voice.resetOrAdvance_of_not_rst h, Voice.slew_vol]
    rw [Voice.slew_vol] at h
    exact (clearRst_of_not_rst h).symm

/-- A tick keeps the waveform register, or flips INVA under TOGC. -/
theorem Voice.tick_wave_cases (sn : Nat) (V : Voice) :
    (V.tick sn).wave = V.wave ∨ (togcFlag V.wave = true ∧ (V.tick sn).wave = flipInvA V.wave) := by
  rw [Voice.tick]
  cases h : rstFlag (V.slew sn).vol with
  | true => exact .inl (by rw [Voice.resetOrAdvance_of_rst h, Voice.slew_wave])
  | false =>
    rw [Voice.resetOrAdvance_of_not_rst h, Voice.slew_wave]
    dsimp only
    split
    next hc => exact .inr ⟨(Bool.and_eq_true_iff.mp hc).2, rfl⟩
    · exact .inl rfl

/-! ### Voices -/

section
variable {i : Instr} {k : Fin Config.numVoices} {sn : Nat} {V V' : Voice}

theorem VoiceEffect.targetRate_eq (h : VoiceEffect i k sn V V') (hr : i ≠ .reset)
    (hw : ∀ v imm16, i = .wrate v imm16 → v.toNat ≠ k.val) : V'.targetRate = V.targetRate := by
  cases h with
  | wrate v imm16 hi hv => exact absurd hv (hw v imm16 hi)
  | reset hi => exact absurd hi hr
  | tick _ => exact Voice.tick_targetRate sn V
  | _ => rfl

theorem VoiceEffect.realRate_acc_eq (h : VoiceEffect i k sn V V') (hr : i ≠ .reset)
    (ht : tickCommand i = false) : V'.realRate = V.realRate ∧ V'.acc = V.acc := by
  cases h with
  | reset hi => exact absurd hi hr
  | tick hi => exact absurd hi (by simp [ht])
  | _ => exact ⟨rfl, rfl⟩

theorem VoiceEffect.wave_cases (h : VoiceEffect i k sn V V') (hr : i ≠ .reset)
    (hw : ∀ v imm8, i = .wwave v imm8 → v.toNat ≠ k.val) :
    V'.wave = V.wave ∨ (tickCommand i = true ∧ togcFlag V.wave = true ∧
      V'.wave = flipInvA V.wave) := by
  cases h with
  | wwave v imm8 hi hv => exact absurd hv (hw v imm8 hi)
  | reset hi => exact absurd hi hr
  | tick hi => exact (Voice.tick_wave_cases sn V).imp_right fun hflip => ⟨hi, hflip⟩
  | _ => exact .inl rfl

theorem VoiceEffect.vol_eq (h : VoiceEffect i k sn V V') (hr : i ≠ .reset)
    (hw : ∀ v imm8, i = .wvol v imm8 → v.toNat ≠ k.val) :
    V'.vol = if tickCommand i then clearRst V.vol else V.vol := by
  cases h with
  | kept hi => rw [hi]; rfl
  | wrate v imm16 hi _ => rw [hi]; rfl
  | wwave v imm8 hi _ => rw [hi]; rfl
  | wvol v imm8 hi hv => exact absurd hv (hw v imm8 hi)
  | reset hi => exact absurd hi hr
  | tick hi => rw [if_pos hi, Voice.tick_vol]

end

/-! ### The noise unit -/

section
variable {i : Instr} {N N' : Noise}

theorem NoiseEffect.eq_tick (h : NoiseEffect i N N') (ht : tickCommand i = true) : N' = N.tick := by
  cases h with
  | tick _ => rfl
  | kept hi => exact absurd ht (by simp [hi])
  | wnper imm8 hi | wnvol imm8 hi | wnwave imm8 hi | reset hi =>
    exact absurd ht (by simp [hi, tickCommand])

theorem NoiseEffect.nper_eq (h : NoiseEffect i N N') (hr : i ≠ .reset)
    (hw : ∀ imm8, i ≠ .wnper imm8) : N'.nper = N.nper := by
  cases h with
  | wnper imm8 hi => exact absurd hi (hw imm8)
  | reset hi => exact absurd hi hr
  | tick _ => exact Noise.tick_nper N
  | _ => rfl

theorem NoiseEffect.ncnt_eq (h : NoiseEffect i N N') (hr : i ≠ .reset)
    (hw : ∀ imm8, i ≠ .wnper imm8) (ht : tickCommand i = false) : N'.ncnt = N.ncnt := by
  cases h with
  | wnper imm8 hi => exact absurd hi (hw imm8)
  | reset hi => exact absurd hi hr
  | tick hi => exact absurd hi (by simp [ht])
  | _ => rfl

theorem NoiseEffect.nvol_eq (h : NoiseEffect i N N') (hr : i ≠ .reset)
    (hw : ∀ imm8, i ≠ .wnvol imm8) :
    N'.nvol = if tickCommand i then clearRst N.nvol else N.nvol := by
  cases h with
  | kept hi => rw [hi]; rfl
  | wnper imm8 hi => rw [hi]; rfl
  | wnvol imm8 hi => exact absurd hi (hw imm8)
  | wnwave imm8 hi => rw [hi]; rfl
  | reset hi => exact absurd hi hr
  | tick hi => rw [if_pos hi, Noise.tick_nvol, Noise.resetFlag_nvol]

theorem NoiseEffect.nwave_eq (h : NoiseEffect i N N') (hr : i ≠ .reset)
    (hw : ∀ imm8, i ≠ .wnwave imm8) : N'.nwave = N.nwave := by
  cases h with
  | wnwave imm8 hi => exact absurd hi (hw imm8)
  | reset hi => exact absurd hi hr
  | tick _ => exact Noise.tick_nwave N
  | _ => rfl

theorem NoiseEffect.lfsr_eq (h : NoiseEffect i N N') (hr : i ≠ .reset)
    (ht : tickCommand i = false) : N'.lfsr = N.lfsr := by
  cases h with
  | reset hi => exact absurd hi hr
  | tick hi => exact absurd hi (by simp [ht])
  | _ => rfl

end

/-! ### The whole table -/

/-- Settles O59, field by field. -/
theorem fieldsHaveTheirWritersOnly : Obligations.FieldsHaveTheirWritersOnly := by
  intro i s
  obtain ⟨t, ht, heffect⟩ := exists_exec_effect i s
  have hnoise := heffect.noise
  have hsn := heffect.sampleNumber
  refine ⟨t, ht, fun k => ?_, hnoise.nper_eq, hnoise.ncnt_eq, hnoise.nvol_eq, hnoise.nwave_eq,
    hnoise.lfsr_eq, fun hi => ?_, fun hi => ?_, fun hr hi => ?_, fun h1 h2 h3 h4 h5 => ?_,
    heffect.fault⟩
  · have hvoice := heffect.voice k
    exact ⟨hvoice.targetRate_eq, hvoice.realRate_acc_eq, hvoice.wave_cases, hvoice.vol_eq⟩
  · rw [hsn, if_pos hi]
  · rw [hsn, hi]
    rfl
  · simp [hsn, hi, hr]
  · exact heffect.filt (by simpa [filterCommand, h1, h2, h3] using ⟨h4, h5⟩)

end Sys2Proof.Machine
end

section
/-! PROOF. A tick of the noise unit in closed form (42_noise.md R160, R161; 10_state.md R28): a
sub-step that is not skipped is one turn of a counter modulo `nper` + 1, and eight of them are an
iterate. -/

namespace Sys2Proof.Machine

/-! ### The period counter -/

theorem Noise.iterate_count_kept (N : Noise) (c : Nat) :
    (Noise.count^[c] N).nper = N.nper ∧ (Noise.count^[c] N).nwave = N.nwave := by
  induction c with
  | zero => exact ⟨rfl, rfl⟩
  | succ c ih =>
    rw [Function.iterate_succ_apply', Noise.count_nper, Noise.count_nwave]
    exact ih

/-- A counter modulo m + 1 that stands at m wraps. -/
theorem succ_div_mod_of_mod_eq {a m : Nat} (h : a % (m + 1) = m) :
    (a + 1) / (m + 1) = a / (m + 1) + 1 ∧ (a + 1) % (m + 1) = 0 := by
  refine (Nat.div_mod_unique m.add_one_pos).mpr ⟨?_, m.add_one_pos⟩
  have hsplit := Nat.div_add_mod a (m + 1)
  rw [Nat.mul_add]
  omega

/-- A counter modulo m + 1 that stands below m counts up. -/
theorem succ_div_mod_of_mod_lt {a m : Nat} (h : a % (m + 1) < m) :
    (a + 1) / (m + 1) = a / (m + 1) ∧ (a + 1) % (m + 1) = a % (m + 1) + 1 := by
  refine (Nat.div_mod_unique m.add_one_pos).mpr ⟨?_, by omega⟩
  have hsplit := Nat.div_add_mod a (m + 1)
  omega

/-- `c` turns of the counter wrap it once each time it has passed the period. -/
theorem Noise.iterate_count_closed {N : Noise} (h : N.ncnt.toNat ≤ N.nper.toNat) (c : Nat) :
    (Noise.count^[c] N).ncnt.toNat = (N.ncnt.toNat + c) % (N.nper.toNat + 1) ∧
      (Noise.count^[c] N).lfsr =
        (lfsrShift (periodicTap N.nwave))^[(N.ncnt.toNat + c) / (N.nper.toNat + 1)] N.lfsr := by
  induction c with
  | zero =>
    have hlt : N.ncnt.toNat < N.nper.toNat + 1 := by omega
    simp [Nat.mod_eq_of_lt hlt, Nat.div_eq_of_lt hlt]
  | succ c ih =>
    obtain ⟨hcnt, hlfsr⟩ := ih
    obtain ⟨hnper, hnwave⟩ := N.iterate_count_kept c
    rw [Function.iterate_succ_apply', ← Nat.add_assoc]
    generalize Noise.count^[c] N = M at *
    generalize N.ncnt.toNat + c = a at *
    have hle : M.ncnt.toNat ≤ M.nper.toNat := by
      rw [hcnt, hnper]
      exact Nat.le_of_lt_succ (Nat.mod_lt a (Nat.add_one_pos _))
    rcases hle.lt_or_eq with hlt | heq
    · obtain ⟨hdiv, hmod⟩ := succ_div_mod_of_mod_lt (hcnt ▸ hnper ▸ hlt)
      rw [Noise.count_ncnt_of_lt hlt, Noise.count_lfsr_of_lt hlt, hdiv, hmod, hcnt]
      exact ⟨rfl, hlfsr⟩
    · obtain ⟨hdiv, hmod⟩ := succ_div_mod_of_mod_eq (hcnt ▸ hnper ▸ heq)
      rw [Noise.count_of_eq (BitVec.eq_of_toNat_eq heq), hdiv, hmod, Function.iterate_succ_apply',
        ← hlfsr, ← hnwave]
      exact ⟨rfl, rfl⟩

/-! ### The sub-steps -/

theorem activeBefore_succ (nwave : BitVec 8) (i : Nat) :
    activeBefore nwave (i + 1) =
      activeBefore nwave i + if subStepSkipped nwave i then 0 else 1 := by
  have hskip : (i == 7 || !nwave.getLsbD i) = !subStepSkipped nwave i := by
    simp [subStepSkipped, bne]
  rw [activeBefore, List.range_succ, List.filter_append, List.length_append, activeBefore,
    List.filter_singleton, hskip]
  cases subStepSkipped nwave i <;> rfl

/-- Sub-step 7 is the one that no bit of `nwave` skips. -/
theorem activeBefore_eight (nwave : BitVec 8) : activeBefore nwave 8 = activeSubSteps nwave := by
  have hseven : activeBefore nwave 7 =
      ([0, 1, 2, 3, 4, 5, 6].filter fun i => !nwave.getLsbD i).length := by
    rw [activeBefore, show List.range 7 = [0, 1, 2, 3, 4, 5, 6] from rfl]
    refine congrArg List.length (List.filter_congr fun j hj => ?_)
    have hne : j ≠ 7 := by
      rintro rfl
      exact absurd hj (by decide)
    simp [hne]
  rw [activeBefore_succ, hseven, activeSubSteps, Nat.add_comm]
  rfl

/-- The first `n` sub-steps are as many turns of the counter as are not skipped, and each adds the low
bit it finds. -/
theorem Noise.foldl_subStep_range (N : Noise) (n : Nat) :
    (List.range n).foldl Noise.subStep (N, 0) =
      (Noise.count^[activeBefore N.nwave n] N,
        ∑ j ∈ Finset.range n,
          ((Noise.count^[activeBefore N.nwave j] N).lfsr.getLsbD 0).toNat) := by
  induction n with
  | zero => rfl
  | succ n ih =>
    rw [List.range_succ, List.foldl_append, ih, List.foldl_cons, List.foldl_nil, Noise.subStep,
      (N.iterate_count_kept _).2, Finset.sum_range_succ, activeBefore_succ]
    congr 1
    split
    · rfl
    · exact (Function.iterate_succ_apply' Noise.count _ N).symm

theorem Noise.subSteps_eq (N : Noise) :
    N.subSteps =
      (Noise.count^[activeSubSteps N.nwave] N,
        ∑ j : Fin 8, ((Noise.count^[activeBefore N.nwave j.val] N).lfsr.getLsbD 0).toNat) := by
  rw [Noise.subSteps, show [0, 1, 2, 3, 4, 5, 6, 7] = List.range 8 from rfl,
    Noise.foldl_subStep_range, activeBefore_eight, ← Fin.sum_univ_eq_sum_range
      (fun j => ((Noise.count^[activeBefore N.nwave j] N).lfsr.getLsbD 0).toNat)]

/-! ### The tick -/

theorem Noise.resetFlag_lfsr (N : Noise) : N.resetFlag.lfsr = lfsrAtTick N := by
  unfold Noise.resetFlag lfsrAtTick rstFlag bitRst
  split <;> rfl

/-- `c` turns of the counter after the reset flag (R160). -/
theorem Noise.iterate_count_resetFlag {N : Noise} (h : N.ncnt.toNat ≤ N.nper.toNat) (c : Nat) :
    (Noise.count^[c] N.resetFlag).ncnt.toNat = (N.ncnt.toNat + c) % (N.nper.toNat + 1) ∧
      (Noise.count^[c] N.resetFlag).lfsr =
        (lfsrShift (N.nwave.getLsbD 7))^[(N.ncnt.toNat + c) / (N.nper.toNat + 1)]
          (lfsrAtTick N) := by
  have hclosed := Noise.iterate_count_closed (N := N.resetFlag) (by simpa using h) c
  rwa [Noise.resetFlag_ncnt, Noise.resetFlag_nper, Noise.resetFlag_nwave, Noise.resetFlag_lfsr]
    at hclosed

/-- Settles O29: the eight sub-steps as turns of the counter. -/
theorem noiseTickClosedForm : Obligations.NoiseTickClosedForm := by
  intro i s hi hcnt
  obtain ⟨t, ht, heffect⟩ := exists_exec_effect i s
  have hcount := Noise.iterate_count_resetFlag hcnt
  have hsteps := s.noise.resetFlag.subSteps_eq
  rw [Noise.resetFlag_nwave] at hsteps
  refine ⟨t, ht, ?_⟩
  rw [heffect.noise.eq_tick hi]
  refine ⟨Noise.tick_nper _, Noise.tick_nwave _, ?_, ?_, ?_, ?_⟩
  · exact (Noise.tick_nvol _).trans (Noise.resetFlag_nvol _)
  · rw [Noise.tick, hsteps]
    exact (hcount _).1
  · rw [Noise.tick, hsteps]
    exact (hcount _).2
  · rw [Noise.tickSum, hsteps]
    simp only [hcount]

end Sys2Proof.Machine
end

section
/-! PROOF. The decoder reads back what the encoder packs (30_encoding.md R77, R78). -/

namespace Sys2Proof

theorem decode_packWord (op : BitVec 4) (idx : BitVec 3) (data : BitVec 16) :
    decode (packWord op idx data) = decodeOp op idx data := by
  simp [decode]

theorem imm8Of_setWidth (imm8 : BitVec 8) : imm8Of (imm8.setWidth 16) = imm8 := by
  apply BitVec.eq_of_toNat_eq
  have h := imm8.isLt
  simp [imm8Of]
  omega

theorem decodeVoice_of_inRange {v : BitVec 3} (h : voiceInRange v = true) (i : Instr) :
    decodeVoice v i = .ok i := by
  have hne : v ≠ 7 := by
    rintro rfl
    cases h
  rw [decodeVoice, if_neg hne]

theorem decode_encode {i : Instr} (h : i.wellFormed = true) : decode (encode i) = .ok i := by
  cases i with
  | wrate v imm16 => exact (decode_packWord _ _ _).trans (decodeVoice_of_inRange h _)
  | wwave v imm8 =>
    rw [encode, decode_packWord]
    exact (decodeVoice_of_inRange h _).trans
      (congrArg (Except.ok ∘ Instr.wwave v) (imm8Of_setWidth imm8))
  | wvol v imm8 =>
    rw [encode, decode_packWord]
    exact (decodeVoice_of_inRange h _).trans
      (congrArg (Except.ok ∘ Instr.wvol v) (imm8Of_setWidth imm8))
  | wnper imm8 =>
    exact (decode_packWord _ _ _).trans (congrArg (Except.ok ∘ Instr.wnper) (imm8Of_setWidth imm8))
  | wnvol imm8 =>
    exact (decode_packWord _ _ _).trans (congrArg (Except.ok ∘ Instr.wnvol) (imm8Of_setWidth imm8))
  | wnwave imm8 =>
    exact (decode_packWord _ _ _).trans (congrArg (Except.ok ∘ Instr.wnwave) (imm8Of_setWidth imm8))
  | reset | frame | sample | mono | stereo | hphone => exact decode_packWord _ _ _
  | sink ch => exact decode_packWord _ _ _

end Sys2Proof
end

section
/-! PROOF. The words of a list of commands run as the list (20_memory.md R58): a step takes one
word, and no command reads or writes the command port. -/

namespace Sys2Proof.Machine

open Host (Outcome)

/-! ### The step -/

theorem step_of_decode {s : State} {w : CommandWord} {rest : List CommandWord} {i : Instr}
    (hp : s.pending = w :: rest) (hd : decode w = .ok i) :
    step s = exec i { s with pending := rest } := by
  simp only [step, State.fetch_cons hp, hd]

/-- Settles O4: the step fetches the word and dispatches on what it decodes to. -/
theorem stepRunsDecodedCommand : Obligations.StepRunsDecodedCommand := fun _ _ _ _ hp hd _ =>
  step_of_decode hp hd

theorem core_run_succ_of_next {s t : State} (h : step s = .next t) (n : Nat) :
    Host.Core.run Sys2Proof.core (n + 1) s = Host.Core.run Sys2Proof.core n t := by
  have hcore : Sys2Proof.core.step s = .next t := h
  simp only [Host.Core.run]
  rw [hcore]

/-! ### No command reads or writes the command port -/

/-- The state `s` with the words `ws` on the command port in place of its own. -/
def State.withPending (s : State) (ws : List CommandWord) : State := { s with pending := ws }

@[simp] theorem State.withPending_sampleNumber (s : State) (ws : List CommandWord) :
    (s.withPending ws).sampleNumber = s.sampleNumber := rfl

theorem writeVoice_withPending (s : State) (ws : List CommandWord) (v : BitVec 3)
    (f : Voice → Voice) :
    (s.withPending ws).writeVoice v f = (s.writeVoice v f).withPending ws := by
  unfold State.writeVoice
  split <;> rfl

theorem writeNoise_withPending (s : State) (ws : List CommandWord) (f : Noise → Noise) :
    (s.withPending ws).writeNoise f = (s.writeNoise f).withPending ws := rfl

theorem voiceStep_withPending (sn : Nat) (ws : List CommandWord) (p : State × Frame)
    (v : Fin Config.numVoices) :
    voiceStep sn (p.map (·.withPending ws) id) v = (voiceStep sn p v).map (·.withPending ws) id :=
  rfl

theorem noiseStep_withPending (ws : List CommandWord) (p : State × Frame) :
    noiseStep (p.map (·.withPending ws) id) = (noiseStep p).map (·.withPending ws) id := rfl

theorem coreTick_withPending (s : State) (ws : List CommandWord) :
    coreTick (s.withPending ws) = (coreTick s).map (·.withPending ws) id := by
  have hvoices : voiceOrder.foldl (voiceStep s.sampleNumber) (s.withPending ws, Frame.silent) =
      (voiceOrder.foldl (voiceStep s.sampleNumber) (s, Frame.silent)).map (·.withPending ws) id :=
    List.foldl_hom _ (init := (s, Frame.silent)) (voiceStep_withPending s.sampleNumber ws)
  rw [coreTick, State.withPending_sampleNumber, hvoices, noiseStep_withPending]
  rfl

theorem monoTick_withPending (k : F64) (s : State) (ws : List CommandWord) :
    monoTick k (s.withPending ws) = (monoTick k s).withPending ws := by
  rw [monoTick, coreTick_withPending]
  rfl

theorem stereoTick_withPending (k : F64) (s : State) (ws : List CommandWord) :
    stereoTick k (s.withPending ws) = (stereoTick k s).withPending ws := by
  rw [stereoTick, coreTick_withPending]
  rfl

theorem hphoneTick_withPending (k kp : F64) (s : State) (ws : List CommandWord) :
    hphoneTick k kp (s.withPending ws) = (hphoneTick k kp s).withPending ws := by
  rw [hphoneTick, coreTick_withPending]
  rfl

/-- A command completes with the same effect whatever words wait behind it, and leaves them. -/
theorem exists_exec_withPending (i : Instr) (s : State) :
    ∃ t : State, ∀ ws, exec i (s.withPending ws) = .next (t.withPending ws) := by
  cases i with
  | wrate v imm16 => exact ⟨_, fun ws => congrArg Outcome.next (writeVoice_withPending s ws v _)⟩
  | wwave v imm8 => exact ⟨_, fun ws => congrArg Outcome.next (writeVoice_withPending s ws v _)⟩
  | wvol v imm8 => exact ⟨_, fun ws => congrArg Outcome.next (writeVoice_withPending s ws v _)⟩
  | wnper imm8 => exact ⟨_, fun ws => congrArg Outcome.next (writeNoise_withPending s ws _)⟩
  | wnvol imm8 => exact ⟨_, fun ws => congrArg Outcome.next (writeNoise_withPending s ws _)⟩
  | wnwave imm8 => exact ⟨_, fun ws => congrArg Outcome.next (writeNoise_withPending s ws _)⟩
  | reset => exact ⟨s.resetSynth.emit .none, fun _ => rfl⟩
  | frame =>
    refine ⟨(coreTick s).1.emit (.frame (coreTick s).2), fun ws => ?_⟩
    rw [exec, execFrame, coreTick_withPending]
    rfl
  | sample =>
    refine ⟨(coreTick s).1.emit (.value (combined (coreTick s).2)), fun ws => ?_⟩
    rw [exec, execSample, coreTick_withPending]
    rfl
  | mono => exact ⟨_, fun ws => congrArg Outcome.next (monoTick_withPending kDac s ws)⟩
  | stereo => exact ⟨_, fun ws => congrArg Outcome.next (stereoTick_withPending kDac s ws)⟩
  | hphone => exact ⟨_, fun ws => congrArg Outcome.next (hphoneTick_withPending kDac kPan s ws)⟩
  | sink ch =>
    simp only [exec, execSink]
    split
    · exact ⟨_, fun ws => congrArg Outcome.next (monoTick_withPending kDac s ws)⟩
    · split
      · exact ⟨_, fun ws => congrArg Outcome.next (stereoTick_withPending kDac s ws)⟩
      · exact ⟨s.raise .contractViolation, fun _ => rfl⟩

/-! ### Runs of presented words -/

/-- Settles O7, by induction on the list: a step takes the first word, which decodes to the first
command, and that command leaves the words behind it as they are. -/
theorem presentedWordsRunInOrder : Obligations.PresentedWordsRunInOrder := by
  intro is rest s hwf
  induction is generalizing s with
  | nil => rfl
  | cons i is ih =>
    obtain ⟨hi, his⟩ := List.forall_mem_cons.mp hwf
    obtain ⟨t, ht⟩ := exists_exec_withPending i s
    have hstep : step { s with pending := (i :: is).map encode ++ rest } =
        .next (t.withPending (is.map encode ++ rest)) :=
      (step_of_decode rfl (decode_encode hi)).trans (ht _)
    have hrest : runInstrs (i :: is) { s with pending := rest } =
        runInstrs is (t.withPending rest) := runInstrs_cons_of_next (ht rest) is
    rw [hrest]
    exact (core_run_succ_of_next hstep is.length).trans (ih t his)

end Sys2Proof.Machine
end

section
/-! PROOF. Which commands may be repeated (20_memory.md R56): a register write and RESET store
values that do not depend on what they replace; a tick counts. -/

namespace Sys2Proof.Machine

open Host (Outcome)

/-! ### Repeated writes -/

theorem State.setVoice_voice (s : State) (k : Fin Config.numVoices) :
    s.setVoice k (s.voice k) = s := by
  simp [State.setVoice, State.voice]

theorem State.writeVoice_writeVoice (s : State) (v : BitVec 3) {f : Voice → Voice}
    (hf : ∀ V, f (f V) = f V) : (s.writeVoice v f).writeVoice v f = s.writeVoice v f := by
  obtain ⟨k, hk, hs⟩ | ⟨hv, hs⟩ := s.writeVoice_cases v f
  · have hfixed : f ((s.writeVoice v f).voice k) = (s.writeVoice v f).voice k := by
      rw [hs, State.emit_voice, State.setVoice_voice_self, hf]
    rw [State.writeVoice_of_index _ f hk, hfixed, State.setVoice_voice, hs]
    rfl
  · rw [hs, State.writeVoice, voiceIndex_eq_none hv]
    rfl

theorem State.writeNoise_writeNoise (s : State) {f : Noise → Noise} (hf : ∀ N, f (f N) = f N) :
    (s.writeNoise f).writeNoise f = s.writeNoise f := by
  rw [State.writeNoise_eq, State.writeNoise_eq, hf]

/-- A register write and RESET complete, and a second time change nothing. -/
theorem exists_exec_exec_of_write {i : Instr} (hi : writeCommand i = true ∨ i = .reset)
    (s : State) : ∃ t, exec i s = .next t ∧ exec i t = .next t := by
  obtain hwrite | rfl := hi
  · cases i with
    | wrate v imm16 =>
      exact ⟨_, rfl, congrArg Outcome.next (s.writeVoice_writeVoice v fun _ => rfl)⟩
    | wwave v imm8 => exact ⟨_, rfl, congrArg Outcome.next (s.writeVoice_writeVoice v fun _ => rfl)⟩
    | wvol v imm8 => exact ⟨_, rfl, congrArg Outcome.next (s.writeVoice_writeVoice v fun _ => rfl)⟩
    | wnper imm8 => exact ⟨_, rfl, congrArg Outcome.next (s.writeNoise_writeNoise fun _ => rfl)⟩
    | wnvol imm8 => exact ⟨_, rfl, congrArg Outcome.next (s.writeNoise_writeNoise fun _ => rfl)⟩
    | wnwave imm8 => exact ⟨_, rfl, congrArg Outcome.next (s.writeNoise_writeNoise fun _ => rfl)⟩
    | reset | frame | sample | mono | stereo | hphone | sink ch => cases hwrite
  · exact ⟨s.resetSynth.emit .none, rfl, rfl⟩

/-! ### Repeated ticks -/

theorem exists_exec_of_tick {i : Instr} (hi : tickCommand i = true) (s : State) :
    ∃ t, exec i s = .next t ∧ t.sampleNumber = s.sampleNumber + 1 := by
  obtain ⟨t, ht, heffect⟩ := exists_exec_effect i s
  exact ⟨t, ht, by rw [heffect.sampleNumber, if_pos hi]⟩

/-- Settles O17: a write is a fixed point of itself; each of two ticks adds 1 to `sample_number`. -/
theorem writesIdempotentTicksNot : Obligations.WritesIdempotentTicksNot := by
  refine ⟨fun _ s hi => exists_exec_exec_of_write hi s, fun _ s hi => ?_⟩
  obtain ⟨t, ht, hsn⟩ := exists_exec_of_tick hi s
  obtain ⟨u, hu, hsn'⟩ := exists_exec_of_tick hi t
  exact ⟨t, u, ht, hu, hsn, by rw [hsn', hsn]⟩

end Sys2Proof.Machine
end

section
/-! PROOF. The words that decode, and what the decoder makes of them (30_encoding.md R73 to R78):
the opcode map says once what each class of opcodes checks and which command it gives. -/

namespace Sys2Proof

/-! ### A word and its fields -/

theorem packWord_fields {w : CommandWord} (hz : zField w = false) :
    packWord (opField w) (idxField w) (dataField w) = w := by
  rw [zField, BitVec.getLsbD, Nat.testBit_eq_decide_div_mod_eq, decide_eq_false_iff_not] at hz
  apply BitVec.eq_of_toNat_eq
  have hw := w.isLt
  simp only [packWord_toNat, opField, idxField, dataField, BitVec.extractLsb'_toNat,
    Nat.shiftRight_eq_div_pow]
  omega

theorem packWord_toNat_div (op : BitVec 4) (idx : BitVec 3) (data : BitVec 16) :
    (packWord op idx data).toNat / 2 ^ 20 = op.toNat := by
  have h2 := idx.isLt
  have h3 := data.isLt
  rw [packWord_toNat]
  omega

/-- The mask leaves every field but `data[15:8]`. -/
theorem packWord_and_mask (op : BitVec 4) (idx : BitVec 3) (data : BitVec 16) :
    packWord op idx data &&& 0xFF00FF#24 = packWord op idx (data &&& 0xFF) := by
  have hmask : 0xFF00FF#24 = BitVec.allOnes (4 + 1 + 3) ++ 0xFF#16 := by decide
  have hkept : op ++ 0#1 ++ idx &&& BitVec.allOnes (4 + 1 + 3) = op ++ 0#1 ++ idx :=
    BitVec.and_allOnes
  rw [hmask]
  exact BitVec.and_append.trans (congrArg (· ++ (data &&& 0xFF)) hkept)

/-- A word with `z` set is refused, whatever its other fields are. -/
theorem decode_reservedBit (op : BitVec 4) (idx : BitVec 3) (data : BitVec 16) :
    decode (op ++ 1#1 ++ idx ++ data) = .error .reservedBit := by
  have hz : (op ++ 1#1 ++ idx ++ data).getLsbD 19 = true := by
    rw [BitVec.getLsbD_append, BitVec.getLsbD_append, BitVec.getLsbD_append]
    rfl
  exact if_pos hz

/-- A word that decodes has `z` = 0, and the opcode map accepts its other fields. -/
theorem exists_packWord_of_decode {w : CommandWord} {i : Instr} (h : decode w = .ok i) :
    ∃ op idx data, w = packWord op idx data ∧ decodeOp op idx data = .ok i := by
  unfold decode at h
  split at h
  · cases h
  next hz => exact ⟨_, _, _, (packWord_fields (Bool.not_eq_true _ ▸ hz)).symm, h⟩

/-! ### The three checks of the operand fields -/

theorem decodeVoice_eq_ok {idx : BitVec 3} {i j : Instr} :
    decodeVoice idx i = .ok j ↔ idx ≠ 7 ∧ i = j := by
  grind [decodeVoice]

theorem decodeVoice_eq_error {idx : BitVec 3} {i : Instr} :
    (∃ r, decodeVoice idx i = .error r) ↔ idx = 7 := by
  unfold decodeVoice
  split
  next h => exact iff_of_true ⟨_, rfl⟩ h
  next h => exact iff_of_false (by simp) h

theorem decodeNoIndex_eq_ok {idx : BitVec 3} {i j : Instr} :
    decodeNoIndex idx i = .ok j ↔ idx = 0 ∧ i = j := by
  grind [decodeNoIndex]

theorem decodeNoIndex_eq_error {idx : BitVec 3} {i : Instr} :
    (∃ r, decodeNoIndex idx i = .error r) ↔ idx ≠ 0 := by
  unfold decodeNoIndex
  split
  next h => exact iff_of_true ⟨_, rfl⟩ h
  next h => exact iff_of_false (by simp) h

theorem decodePlain_eq_ok {idx : BitVec 3} {data : BitVec 16} {i j : Instr} :
    decodePlain idx data i = .ok j ↔ idx = 0 ∧ data = 0 ∧ i = j := by
  grind [decodePlain]

theorem decodePlain_eq_error {idx : BitVec 3} {data : BitVec 16} {i : Instr} :
    (∃ r, decodePlain idx data i = .error r) ↔ idx ≠ 0 ∨ data ≠ 0 := by
  unfold decodePlain
  split
  next h => exact iff_of_true ⟨_, rfl⟩ (.inl h)
  next h =>
    split
    next h' => exact iff_of_true ⟨_, rfl⟩ (.inr h')
    next h' => exact iff_of_false (by simp) (not_or.mpr ⟨h, h'⟩)

theorem voiceInRange_iff {v : BitVec 3} : voiceInRange v = true ↔ v ≠ 7 := by
  revert v
  decide

/-! ### The four classes of opcodes -/

/-- The voice writes, the commands with an operand but no voice, those with no operand, and the
opcodes of no command (R73, R75). -/
theorem opcode_class (op : BitVec 4) :
    (op = 1 ∨ op = 2 ∨ op = 3) ∨ (op = 4 ∨ op = 5 ∨ op = 6 ∨ op = 0xD) ∨
      (op = 7 ∨ op = 8 ∨ op = 9 ∨ op = 0xA ∨ op = 0xB ∨ op = 0xC) ∨
      (op = 0x0 ∨ op = 0xE ∨ op = 0xF) := by
  revert op
  decide

/-- The bits of the `data` field that the opcode does not ignore (R74). -/
def significantData (op : BitVec 4) (data : BitVec 16) : BitVec 16 :=
  if 2 ≤ op.toNat ∧ op.toNat ≤ 6 then data &&& 0xFF else data

theorem significantData_zero (op : BitVec 4) : significantData op 0 = 0 := by
  unfold significantData
  split
  · exact BitVec.zero_and
  · rfl

theorem setWidth_imm8Of (data : BitVec 16) : (imm8Of data).setWidth 16 = data &&& 0xFF := by
  apply BitVec.eq_of_toNat_eq
  have hmask : data.toNat &&& 255 = data.toNat % 2 ^ 8 := Nat.and_two_pow_sub_one_eq_mod _ 8
  simp only [imm8Of, BitVec.toNat_setWidth, BitVec.extractLsb'_toNat, BitVec.toNat_and,
    BitVec.ofNat_eq_ofNat, BitVec.toNat_ofNat, Nat.shiftRight_zero, Nat.reducePow, Nat.reduceMod,
    hmask]
  omega

theorem decodeOp_voice {op : BitVec 4} (hop : op = 1 ∨ op = 2 ∨ op = 3) (idx : BitVec 3)
    (data : BitVec 16) :
    ∃ i, decodeOp op idx data = decodeVoice idx i ∧ i.wellFormed = voiceInRange idx ∧
      encode i = packWord op idx (significantData op data) := by
  obtain rfl | rfl | rfl := hop
  · exact ⟨.wrate idx data, rfl, rfl, rfl⟩
  · exact ⟨.wwave idx (imm8Of data), rfl, rfl, congrArg (packWord 2 idx) (setWidth_imm8Of data)⟩
  · exact ⟨.wvol idx (imm8Of data), rfl, rfl, congrArg (packWord 3 idx) (setWidth_imm8Of data)⟩

theorem decodeOp_noIndex {op : BitVec 4} (hop : op = 4 ∨ op = 5 ∨ op = 6 ∨ op = 0xD)
    (idx : BitVec 3) (data : BitVec 16) :
    ∃ i, decodeOp op idx data = decodeNoIndex idx i ∧ i.wellFormed = true ∧
      encode i = packWord op 0 (significantData op data) := by
  obtain rfl | rfl | rfl | rfl := hop
  · exact ⟨.wnper (imm8Of data), rfl, rfl, congrArg (packWord 4 0) (setWidth_imm8Of data)⟩
  · exact ⟨.wnvol (imm8Of data), rfl, rfl, congrArg (packWord 5 0) (setWidth_imm8Of data)⟩
  · exact ⟨.wnwave (imm8Of data), rfl, rfl, congrArg (packWord 6 0) (setWidth_imm8Of data)⟩
  · exact ⟨.sink data, rfl, rfl, rfl⟩

theorem decodeOp_plain {op : BitVec 4}
    (hop : op = 7 ∨ op = 8 ∨ op = 9 ∨ op = 0xA ∨ op = 0xB ∨ op = 0xC) (idx : BitVec 3)
    (data : BitVec 16) :
    ∃ i, decodeOp op idx data = decodePlain idx data i ∧ i.wellFormed = true ∧
      encode i = packWord op 0 0 := by
  obtain rfl | rfl | rfl | rfl | rfl | rfl := hop
  · exact ⟨.reset, rfl, rfl, rfl⟩
  · exact ⟨.frame, rfl, rfl, rfl⟩
  · exact ⟨.sample, rfl, rfl, rfl⟩
  · exact ⟨.mono, rfl, rfl, rfl⟩
  · exact ⟨.stereo, rfl, rfl, rfl⟩
  · exact ⟨.hphone, rfl, rfl, rfl⟩

theorem decodeOp_illegal {op : BitVec 4} (hop : op = 0x0 ∨ op = 0xE ∨ op = 0xF) (idx : BitVec 3)
    (data : BitVec 16) : decodeOp op idx data = .error .illegalOpcode := by
  obtain rfl | rfl | rfl := hop <;> rfl

/-! ### Decoding and encoding -/

/-- Settles O1: the voice index is in range, so no check of the decoder fails. -/
theorem decodeEncodeRoundTrip : Obligations.DecodeEncodeRoundTrip := fun _ => decode_encode

theorem encode_of_decodeOp {op : BitVec 4} {idx : BitVec 3} {data : BitVec 16} {i : Instr}
    (h : decodeOp op idx data = .ok i) :
    i.wellFormed = true ∧ encode i = packWord op idx (significantData op data) := by
  obtain hop | hop | hop | hop := opcode_class op
  · obtain ⟨j, hdec, hwf, henc⟩ := decodeOp_voice hop idx data
    obtain ⟨hidx, rfl⟩ := decodeVoice_eq_ok.mp (hdec ▸ h)
    exact ⟨hwf.trans (voiceInRange_iff.mpr hidx), henc⟩
  · obtain ⟨j, hdec, hwf, henc⟩ := decodeOp_noIndex hop idx data
    obtain ⟨rfl, rfl⟩ := decodeNoIndex_eq_ok.mp (hdec ▸ h)
    exact ⟨hwf, henc⟩
  · obtain ⟨j, hdec, hwf, henc⟩ := decodeOp_plain hop idx data
    obtain ⟨rfl, rfl, rfl⟩ := decodePlain_eq_ok.mp (hdec ▸ h)
    exact ⟨hwf, henc.trans (by rw [significantData_zero])⟩
  · rw [decodeOp_illegal hop] at h
    cases h

/-- Settles O2: a word that decodes is packed from its fields, and its command encodes to the same
fields less the bits the opcode ignores. -/
theorem encodeDecodeUpToIgnoredBits : Obligations.EncodeDecodeUpToIgnoredBits := by
  intro w i h
  obtain ⟨op, idx, data, rfl, hop⟩ := exists_packWord_of_decode h
  obtain ⟨hwf, henc⟩ := encode_of_decodeOp hop
  refine ⟨hwf, ?_⟩
  rw [henc, packWord_toNat_div, packWord_and_mask, significantData, apply_ite (packWord op idx)]

/-- Settles O6, by evaluating the decoder on each word. -/
theorem specWordsDecode : Obligations.SpecWordsDecode := by
  unfold Obligations.SpecWordsDecode
  decide

end Sys2Proof
end

section
/-! PROOF. Which words are illegal and what the core does with one (30_encoding.md R76): every check
that fails is the fault IllegalCommand, and so is a voice write of voice 7. -/

namespace Sys2Proof.Machine

/-! ### The illegal words -/

/-- The opcode map refuses the opcodes of no command, voice 7, and must-be-zero fields that are
not 0. -/
theorem decodeOp_eq_error_iff (op : BitVec 4) (idx : BitVec 3) (data : BitVec 16) :
    (∃ r, decodeOp op idx data = .error r) ↔
      op = 0x0 ∨ op = 0xE ∨ op = 0xF ∨ ((op = 1 ∨ op = 2 ∨ op = 3) ∧ idx = 7) ∨
        (¬(op = 1 ∨ op = 2 ∨ op = 3) ∧ idx ≠ 0) ∨
        ((op = 7 ∨ op = 8 ∨ op = 9 ∨ op = 0xA ∨ op = 0xB ∨ op = 0xC) ∧ data ≠ 0) := by
  obtain hop | hop | hop | hop := opcode_class op
  · obtain ⟨i, hdec, -, -⟩ := decodeOp_voice hop idx data
    rw [hdec, decodeVoice_eq_error]
    obtain rfl | rfl | rfl := hop <;> simp
  · obtain ⟨i, hdec, -, -⟩ := decodeOp_noIndex hop idx data
    rw [hdec, decodeNoIndex_eq_error]
    obtain rfl | rfl | rfl | rfl := hop <;> simp
  · obtain ⟨i, hdec, -, -⟩ := decodeOp_plain hop idx data
    rw [hdec, decodePlain_eq_error]
    obtain rfl | rfl | rfl | rfl | rfl | rfl := hop <;> simp
  · rw [decodeOp_illegal hop]
    obtain rfl | rfl | rfl := hop <;> simp

/-! ### What the core does with an illegal word -/

theorem step_present_of_error {w : CommandWord} {r : Reject} (h : decode w = .error r) (s : State) :
    step (s.present w) = illegalOutcome s := by
  simp only [step, State.present_fetch, h]
  rfl

theorem step_present_of_ok {w : CommandWord} {i : Instr} (h : decode w = .ok i) (s : State) :
    step (s.present w) = exec i s := step_of_decode rfl h

theorem exec_sink_contract {ch : BitVec 16} (h1 : ch ≠ 1) (h2 : ch ≠ 2) (s : State) :
    exec (.sink ch) s = contractOutcome s := by
  rw [exec, execSink, if_neg h1, if_neg h2]
  rfl

/-- Settles O3: `z` is checked first, then the opcode map decides; a SINK word is the encoding of
its command. -/
theorem illegalWordsExactly : Obligations.IllegalWordsExactly := by
  have hsink (ch : BitVec 16) : decode (0xD#4 ++ 0#1 ++ 0#3 ++ ch) = .ok (.sink ch) :=
    decode_encode (i := .sink ch) rfl
  refine ⟨fun op z idx data => ?_, fun w r h s => step_present_of_error h s, fun ch =>
    ⟨hsink ch, fun h1 h2 s => (step_present_of_ok (hsink ch) s).trans (exec_sink_contract h1 h2 s)⟩⟩
  obtain rfl | rfl := BitVec.eq_zero_or_eq_one z
  · have hdec : decode (op ++ 0#1 ++ idx ++ data) = decodeOp op idx data :=
      decode_packWord op idx data
    rw [hdec, decodeOp_eq_error_iff]
    simp
  · simp [decode_reservedBit]

/-- A voice write of voice 7 writes no voice (log 12). -/
theorem State.writeVoice_seven (s : State) (f : Voice → Voice) :
    s.writeVoice 7 f = s.raise .illegalCommand := by
  rw [State.writeVoice, voiceIndex_eq_none (by decide)]

/-- Settles O16: all three voice writes go through `State.writeVoice`. -/
theorem voiceSevenIsIllegal : Obligations.VoiceSevenIsIllegal := fun s _ _ =>
  ⟨congrArg Host.Outcome.next (s.writeVoice_seven _),
    congrArg Host.Outcome.next (s.writeVoice_seven _),
    congrArg Host.Outcome.next (s.writeVoice_seven _)⟩

end Sys2Proof.Machine
end

section
/-! PROOF. The pseudo-instructions (30_encoding.md R79): n commands of one kind are the n-fold
iteration of what one does, so counts and kept fields add up and the last command leaves its result
(44_filter.md R217). -/

namespace Sys2Proof.Machine

/-! ### The words -/

theorem wellFormed_of_mem_expand {p : Pseudo} {i : Instr} (h : i ∈ p.expand) :
    i.wellFormed = true := by
  cases p with
  | fillMono n | fillStereo n | fillHp n | fill ch n | ticks n =>
    rw [List.eq_of_mem_replicate h]
    rfl

theorem map_decode_words (p : Pseudo) : p.words.map decode = p.expand.map Except.ok := by
  rw [Pseudo.words, List.map_map]
  exact List.map_congr_left fun _ hi => decode_encode (wellFormed_of_mem_expand hi)

/-! ### Repeated commands -/

/-- The function `f` is one tick, as far as `sample_number` shows. -/
def CountsOne (f : State → State) : Prop := ∀ s, (f s).sampleNumber = s.sampleNumber + 1

theorem CountsOne.iterate {f : State → State} (hf : CountsOne f) (n : Nat) (s : State) :
    (f^[n] s).sampleNumber = s.sampleNumber + n := by
  have hsemi : Function.Semiconj State.sampleNumber f Nat.succ := hf
  rw [(hsemi.iterate_right n).eq, Nat.succ_iterate]

theorem CountsOne.iterate_succ {f : State → State} (hf : CountsOne f) (n : Nat) (s : State) :
    (f (f^[n] s)).sampleNumber = s.sampleNumber + (n + 1) := by
  rw [hf, hf.iterate, Nat.add_assoc]

theorem runInstrs_replicate {i : Instr} {f : State → State} (hf : ∀ s, exec i s = .next (f s))
    (n : Nat) (s : State) : runInstrs (List.replicate n i) s = .next (f^[n] s) := by
  induction n generalizing s with
  | zero => rfl
  | succ n ih => exact (runInstrs_cons_of_next (hf s) _).trans (ih (f s))

/-- A run of `n + 1` equal commands ends with the last one, on the state that `n` of them leave. -/
theorem runInstrs_replicate_succ {i : Instr} {f : State → State}
    (hf : ∀ s, exec i s = .next (f s)) (n : Nat) (s : State) :
    runInstrs (List.replicate (n + 1) i) s = .next (f (f^[n] s)) := by
  rw [runInstrs_replicate hf, Function.iterate_succ_apply']

/-! ### What each repeated command makes of a state -/

theorem monoTick_countsOne (k : F64) : CountsOne (monoTick k) := fun _ => rfl

theorem stereoTick_countsOne (k : F64) : CountsOne (stereoTick k) := fun _ => rfl

theorem hphoneTick_countsOne (k kp : F64) : CountsOne (hphoneTick k kp) := fun _ => rfl

theorem exec_sink_one (s : State) : exec (.sink 1) s = .next (monoTick kDac s) := rfl

theorem exec_sink_two (s : State) : exec (.sink 2) s = .next (stereoTick kDac s) := rfl

/-- What FRAME makes of a state (R191). -/
def frameTick (s : State) : State := (coreTick s).1.emit (.frame (coreTick s).2)

theorem exec_frame (s : State) : exec .frame s = .next (frameTick s) := rfl

theorem frameTick_countsOne : CountsOne frameTick := fun _ => rfl

theorem frameTick_filt (s : State) : (frameTick s).filt = s.filt := coreTick_filt s

theorem iterate_frameTick_filt (n : Nat) (s : State) : (frameTick^[n] s).filt = s.filt := by
  have hsemi : Function.Semiconj State.filt frameTick id := frameTick_filt
  rw [(hsemi.iterate_right n).eq, Function.iterate_id, id]

/-- Settles O40: a fill is the iteration of its tick; the last one's result stands on the port. -/
theorem fillsAreRepeatedTicks : Obligations.FillsAreRepeatedTicks := by
  refine ⟨map_decode_words, fun n s => ⟨?fillMono, ?fillStereo, ?fillHp, ?ticks⟩⟩
  case fillMono =>
    exact ⟨_, runInstrs_replicate_succ (fun _ => rfl) n s,
      (monoTick_countsOne kDac).iterate_succ n s, rfl, runInstrs_replicate_succ exec_sink_one n s⟩
  case fillStereo =>
    exact ⟨_, runInstrs_replicate_succ (fun _ => rfl) n s,
      (stereoTick_countsOne kDac).iterate_succ n s, rfl,
      runInstrs_replicate_succ exec_sink_two n s⟩
  case fillHp =>
    exact ⟨_, _, _, runInstrs_replicate_succ (fun _ => rfl) n s,
      (hphoneTick_countsOne kDac kPan).iterate_succ n s, rfl⟩
  case ticks =>
    exact ⟨_, _, runInstrs_replicate_succ exec_frame n s, frameTick_countsOne.iterate_succ n s, rfl,
      (frameTick_filt _).trans (iterate_frameTick_filt n s)⟩

end Sys2Proof.Machine
end

section
/-! PROOF. Writes between two ticks compose in order (40_register_writes.md R108): what one write
makes of the state, and that the effects of lists of writes compose. -/

namespace Sys2Proof.Machine

/-! ### The write operations -/

theorem State.writeVoice_voice (s : State) {v : BitVec 3} {k : Fin Config.numVoices}
    (hv : v.toNat = k.val) (f : Voice → Voice) (u : Fin Config.numVoices) :
    (s.writeVoice v f).voice u = if u = k then f (s.voice u) else s.voice u := by
  rw [s.writeVoice_of_index f hv, State.emit_voice]
  split
  next h => rw [h, State.setVoice_voice_self]
  next h => exact State.setVoice_voice_ne s _ h

theorem State.writeVoice_sameOutside (s : State) {v : BitVec 3} {k : Fin Config.numVoices}
    (hv : v.toNat = k.val) (f : Voice → Voice) : SameOutsideVoice k s (s.writeVoice v f) := by
  refine ⟨fun u hu => (s.writeVoice_voice hv f u).trans (if_neg hu), ?_⟩
  rw [s.writeVoice_of_index f hv]
  exact ⟨rfl, rfl, rfl, rfl, rfl⟩

theorem State.writeVoice_noise_fault (s : State) {v : BitVec 3} {k : Fin Config.numVoices}
    (hv : v.toNat = k.val) (f : Voice → Voice) :
    (s.writeVoice v f).noise = s.noise ∧ (s.writeVoice v f).fault = s.fault := by
  obtain ⟨_, hnoise, _, _, hfault, _⟩ := s.writeVoice_sameOutside hv f
  exact ⟨hnoise, hfault⟩

/-! ### The effect of a list of writes -/

/-- What a list of writes to existing registers makes of a state (R108). -/
structure WritesEffect (is : List Instr) (s t : State) : Prop where
  hostReg : ∀ r, t.hostReg r = lastWritten r (s.hostReg r) is
  ncnt_of_mem : (∃ imm8, Instr.wnper imm8 ∈ is) → t.noise.ncnt = 0
  ncnt_of_not_mem : (∀ imm8, Instr.wnper imm8 ∉ is) → t.noise.ncnt = s.noise.ncnt
  voice : ∀ v, (t.voice v).realRate = (s.voice v).realRate ∧ (t.voice v).acc = (s.voice v).acc
  lfsr : t.noise.lfsr = s.noise.lfsr
  sampleNumber : t.sampleNumber = s.sampleNumber
  filt : t.filt = s.filt
  fault : t.fault = s.fault

theorem lastWritten_singleton {i : Instr} {r₀ : HostReg} {x : BitVec 16}
    (h : writeOf i = some (r₀, x)) (r : HostReg) (old : BitVec 16) :
    lastWritten r old [i] = if r₀ = r then x else old := by
  rw [lastWritten, h]
  rfl

theorem lastWritten_cons (r : HostReg) (old : BitVec 16) (i : Instr) (is : List Instr) :
    lastWritten r old (i :: is) = lastWritten r (lastWritten r old [i]) is := by
  simp only [lastWritten]
  split <;> rfl

theorem WritesEffect.nil (s : State) : WritesEffect [] s s where
  hostReg _ := rfl
  ncnt_of_mem := by simp
  ncnt_of_not_mem _ := rfl
  voice _ := ⟨rfl, rfl⟩
  lfsr := rfl
  sampleNumber := rfl
  filt := rfl
  fault := rfl

/-- A period write zeroes the counter, and no later write moves it off 0. -/
theorem WritesEffect.cons {i : Instr} {is : List Instr} {s u t : State}
    (hi : WritesEffect [i] s u) (his : WritesEffect is u t) : WritesEffect (i :: is) s t where
  hostReg r := by rw [his.hostReg, hi.hostReg, ← lastWritten_cons]
  ncnt_of_mem := by
    rintro ⟨imm8, hmem⟩
    by_cases hlater : ∃ imm8, Instr.wnper imm8 ∈ is
    · exact his.ncnt_of_mem hlater
    · have hnone : ∀ imm8, Instr.wnper imm8 ∉ is := not_exists.mp hlater
      have hhead : Instr.wnper imm8 ∈ [i] := by simpa [hnone imm8] using hmem
      rw [his.ncnt_of_not_mem hnone, hi.ncnt_of_mem ⟨imm8, hhead⟩]
  ncnt_of_not_mem hnone := by
    simp only [List.mem_cons, not_or] at hnone
    rw [his.ncnt_of_not_mem fun imm8 => (hnone imm8).2,
      hi.ncnt_of_not_mem fun imm8 => by simpa using (hnone imm8).1]
  voice v := ⟨(his.voice v).1.trans (hi.voice v).1, (his.voice v).2.trans (hi.voice v).2⟩
  lfsr := his.lfsr.trans hi.lfsr
  sampleNumber := his.sampleNumber.trans hi.sampleNumber
  filt := his.filt.trans hi.filt
  fault := his.fault.trans hi.fault

/-! ### The effect of one write -/

theorem exists_index_of_voiceWrite {v : BitVec 3} {g : Fin Config.numVoices → HostReg × BitVec 16}
    {p : HostReg × BitVec 16} (h : (voiceIndex v).map g = some p) :
    ∃ k : Fin Config.numVoices, v.toNat = k.val ∧ g k = p := by
  obtain ⟨k, hk, hp⟩ := Option.map_eq_some_iff.mp h
  exact ⟨k, voiceIndex_some_val hk, hp⟩

theorem writeCommand_of_writeOf {i : Instr} (hi : (writeOf i).isSome = true) :
    writeCommand i = true ∧ filterCommand i = false := by
  cases i with
  | wrate _ _ | wwave _ _ | wvol _ _ | wnper _ | wnvol _ | wnwave _ =>
    exact ⟨rfl, by simp [filterCommand]⟩
  | reset | frame | sample | mono | stereo | hphone | sink _ => cases hi

/-- A write to an existing register stores its value there, keeps the other host-written registers
and raises no fault. -/
theorem hostReg_fault_of_exec_write {i : Instr} {r₀ : HostReg} {x : BitVec 16}
    (hw : writeOf i = some (r₀, x)) {s t : State} (ht : exec i s = .next t) :
    (∀ r, t.hostReg r = if r₀ = r then x else s.hostReg r) ∧ t.fault = s.fault := by
  cases i with
  | wrate v imm | wwave v imm | wvol v imm =>
    obtain ⟨k, hv, heq⟩ := exists_index_of_voiceWrite hw
    cases heq
    cases ht
    obtain ⟨hnoise, hfault⟩ := s.writeVoice_noise_fault hv _
    refine ⟨fun r => ?_, hfault⟩
    cases r <;> grind [State.hostReg, State.writeVoice_voice]
  | wnper imm8 | wnvol imm8 | wnwave imm8 =>
    cases hw
    cases ht
    exact ⟨fun r => by cases r <;> rfl, rfl⟩
  | reset | frame | sample | mono | stereo | hphone | sink ch => cases hw

theorem exists_exec_writesEffect {i : Instr} (hi : (writeOf i).isSome = true) (s : State) :
    ∃ t, exec i s = .next t ∧ WritesEffect [i] s t := by
  obtain ⟨t, ht, heffect⟩ := exists_exec_effect i s
  obtain ⟨⟨r₀, x⟩, hw⟩ := Option.isSome_iff_exists.mp hi
  obtain ⟨hreg, hfault⟩ := hostReg_fault_of_exec_write hw ht
  obtain ⟨hwrite, hfilter⟩ := writeCommand_of_writeOf hi
  obtain ⟨htick, hreset⟩ := not_tick_of_writeCommand hwrite
  refine ⟨t, ht, fun r => ?_, ?_, fun hnone => ?_, fun v => ?_, ?_, ?_,
    heffect.filt hfilter, hfault⟩
  · rw [hreg, lastWritten_singleton hw]
  · rintro ⟨imm8, hmem⟩
    cases List.mem_singleton.mp hmem
    cases ht
    rfl
  · exact heffect.noise.ncnt_eq hreset
      (fun imm8 h => hnone imm8 (List.mem_singleton.mpr h.symm)) htick
  · exact (heffect.voice v).realRate_acc_eq hreset htick
  · exact heffect.noise.lfsr_eq hreset htick
  · simp [heffect.sampleNumber, htick, hreset]

theorem exists_runInstrs_writesEffect {is : List Instr}
    (his : ∀ i ∈ is, (writeOf i).isSome = true) (s : State) :
    ∃ t, runInstrs is s = .next t ∧ WritesEffect is s t := by
  induction is generalizing s with
  | nil => exact ⟨s, rfl, .nil s⟩
  | cons i is ih =>
    obtain ⟨hi, his⟩ := List.forall_mem_cons.mp his
    obtain ⟨u, hu, hfirst⟩ := exists_exec_writesEffect hi s
    obtain ⟨t, ht, hrest⟩ := ih his u
    exact ⟨t, (runInstrs_cons_of_next hu is).trans ht, hfirst.cons hrest⟩

/-- Settles O18: the effects of the list's writes compose. -/
theorem lastWriteWins : Obligations.LastWriteWins := by
  intro is s his
  obtain ⟨t, ht, heffect⟩ := exists_runInstrs_writesEffect his s
  exact ⟨t, ht, heffect.hostReg, heffect.ncnt_of_mem, heffect.ncnt_of_not_mem, heffect.voice,
    heffect.lfsr, heffect.sampleNumber, heffect.filt, heffect.fault⟩

end Sys2Proof.Machine
end

section
/-! PROOF. The writes to a voice (40_register_writes.md R101 to R103): which words issue them, what
they write, and what the next tick makes of the value written (41_voice.md R130, R131, R133). -/

namespace Sys2Proof.Machine

/-! ### The words of a register write -/

theorem step_present_legal {op : BitVec 4} {idx : BitVec 3} {data : BitVec 16} {i : Instr}
    (h : decodeOp op idx data = .ok i) (s : State) :
    step (s.present (op ++ 0#1 ++ idx ++ data)) = exec i s :=
  step_present_of_ok ((decode_packWord op idx data).trans h) s

/-- A word is refused for a set `z`, or by the opcode map. -/
theorem step_present_illegal {op : BitVec 4} {z : BitVec 1} {idx : BitVec 3} {data : BitVec 16}
    (h : z ≠ 0 ∨ ∃ r, decodeOp op idx data = .error r) (s : State) :
    step (s.present (op ++ z ++ idx ++ data)) = illegalOutcome s := by
  obtain rfl | rfl := BitVec.eq_zero_or_eq_one z
  · obtain hz | ⟨r, hr⟩ := h
    · exact absurd rfl hz
    · exact step_present_of_error ((decode_packWord op idx data).trans hr) s
  · exact step_present_of_error (decode_reservedBit op idx data) s

theorem imm8Of_eq_setWidth (data : BitVec 16) : imm8Of data = data.setWidth 8 := by
  apply BitVec.eq_of_toNat_eq
  simp [imm8Of]

/-- The words of a voice write: voices 0 to 6 issue it, voice 7 and a set `z` are illegal (R75,
R76). -/
theorem step_present_voiceWrite {op : BitVec 4} {v : BitVec 3} {data : BitVec 16} {i : Instr}
    (hop : decodeOp op v data = decodeVoice v i) (s : State) :
    (∀ k : Fin Config.numVoices, v.toNat = k.val →
        step (s.present (op ++ 0#1 ++ v ++ data)) = exec i s) ∧
      (v = 7 → step (s.present (op ++ 0#1 ++ v ++ data)) = illegalOutcome s) ∧
      step (s.present (op ++ 1#1 ++ v ++ data)) = illegalOutcome s := by
  refine ⟨fun k hv => step_present_legal (hop.trans ?_) s,
    fun hv => step_present_illegal (.inr ?_) s, step_present_illegal (.inl (by decide)) s⟩
  · exact decodeVoice_of_inRange (decide_eq_true (hv ▸ k.isLt)) i
  · rw [hop]
    exact decodeVoice_eq_error.mpr hv

/-! ### The next tick -/

theorem VoiceEffect.eq_tick {i : Instr} {k : Fin Config.numVoices} {sn : Nat} {V V' : Voice}
    (h : VoiceEffect i k sn V V') (ht : tickCommand i = true) : V' = V.tick sn := by
  cases h with
  | tick _ => rfl
  | kept hi => exact absurd ht (by simp [hi])
  | wrate v imm hi _ | wwave v imm hi _ | wvol v imm hi _ =>
    exact absurd ht (by simp [hi, tickCommand])
  | reset hi => exact absurd ht (by simp [hi, tickCommand])

/-- A tick command completes, and each voice and the noise unit take their step. -/
theorem exists_exec_tick {i : Instr} (hi : tickCommand i = true) (s : State) :
    ∃ u, exec i s = .next u ∧ (∀ k, u.voice k = (s.voice k).tick s.sampleNumber) ∧
      u.noise = s.noise.tick := by
  obtain ⟨u, hu, heffect⟩ := exists_exec_effect i s
  exact ⟨u, hu, fun k => (heffect.voice k).eq_tick hi, heffect.noise.eq_tick hi⟩

@[simp] theorem Voice.tick_realRate (sn : Nat) (V : Voice) :
    (V.tick sn).realRate = (V.slew sn).realRate := Voice.resetOrAdvance_realRate _

theorem Voice.tick_acc_of_rst (sn : Nat) {V : Voice} (h : V.vol.getLsbD 7 = true) :
    (V.tick sn).acc = if V.wave &&& signedResetMask = signedResetMask then 0x8000 else 0 := by
  have hrst : rstFlag (V.slew sn).vol = true := by rw [Voice.slew_vol]; exact h
  rw [Voice.tick, Voice.resetOrAdvance_of_rst hrst, Voice.slew_wave]
  simp [signedReset]

theorem Voice.tick_acc_of_not_rst (sn : Nat) {V : Voice} (h : V.vol.getLsbD 7 = false) :
    (V.tick sn).acc.toNat = (V.acc.toNat + (V.tick sn).realRate.toNat + 1) % 65536 := by
  have hrst : rstFlag (V.slew sn).vol = false := by rw [Voice.slew_vol]; exact h
  rw [Voice.tick_realRate, Voice.tick, Voice.resetOrAdvance_of_not_rst hrst]
  simp [Voice.phaseSum]

/-- Slew class 0: the rate jumps to its target, and the accumulator moves by it (R130, R131). -/
theorem Voice.tick_of_instant (sn : Nat) {V : Voice} (h : V.targetRate.toNat < 2 ^ 14) :
    (V.tick sn).realRate.toNat = V.targetRate.toNat ∧
      (V.vol.getLsbD 7 = false →
        (V.tick sn).acc.toNat = (V.acc.toNat + V.targetRate.toNat + 1) % 65536) := by
  have hclass : slewClass V.targetRate = 0 := by rw [slewClass_eq, Nat.div_eq_of_lt h]
  have hrate : (V.tick sn).realRate.toNat = V.targetRate.toNat := by
    rw [Voice.tick_realRate, Voice.slew, if_pos hclass, target14_toNat, Nat.mod_eq_of_lt h]
  exact ⟨hrate, fun hrst => by rw [Voice.tick_acc_of_not_rst sn hrst, hrate]⟩

/-! ### The level of a volume -/

theorem getLsbD_seven (vol : BitVec 8) : vol.getLsbD 7 = decide (128 ≤ vol.toNat) := by
  have h := vol.isLt
  rw [BitVec.getLsbD, Nat.testBit_eq_decide_div_mod_eq]
  congr 1
  apply propext
  omega

/-- The level does not read the reset flag. -/
theorem level_clearRst (vol : BitVec 8) : level (clearRst vol) = level vol := by
  refine BitVec.eq_of_getLsbD_eq fun j hj => ?_
  have hmask : (127#8).getLsbD j = true := by interval_cases j <;> rfl
  simp [level, clearRst, hj, hmask]

theorem q6_of_full (a : Nat) {b : BitVec 7} (h : 64 ≤ b.toNat) : q6 a b = (a : Int) - 32 := by
  have hb := b.isLt
  have hbit : b.getLsbD 6 = true := by
    rw [BitVec.getLsbD, Nat.testBit_eq_decide_div_mod_eq]
    exact decide_eq_true (by omega)
  rw [q6, if_pos hbit]

theorem q6_zero (a : Nat) : q6 a 0 = 0 := by simp [q6]

/-- The level the contribution of a tick is scaled by is the one of the volume before it. -/
theorem Voice.tick_contribution (sn : Nat) (V : Voice) :
    (V.tick sn).contribution =
      q6 (wavefn (V.tick sn).acc (V.tick sn).wave).toNat (level V.vol) := by
  rw [Voice.contribution, Voice.tick_vol, level_clearRst]

/-! ### The three writes -/

/-- The state after a write to voice `k`: the voice, the result port and the frame. -/
theorem writeVoice_effect (s : State) {v : BitVec 3} {k : Fin Config.numVoices}
    (hv : v.toNat = k.val) (f : Voice → Voice) :
    (s.writeVoice v f).voice k = f (s.voice k) ∧ (s.writeVoice v f).result = .none ∧
      SameOutsideVoice k s (s.writeVoice v f) := by
  refine ⟨(s.writeVoice_voice hv f k).trans (if_pos rfl), ?_, s.writeVoice_sameOutside hv f⟩
  rw [s.writeVoice_of_index f hv, State.emit_result]

/-- Settles O8: the slew rule of class 0 on the rate written. -/
theorem wrateSetsTargetRate : Obligations.WrateSetsTargetRate := by
  intro v imm16 s
  obtain ⟨hlegal, hillegal⟩ :=
    step_present_voiceWrite (op := 1) (data := imm16) (i := .wrate v imm16) rfl s
  refine ⟨fun k hv => ⟨hlegal k hv, ?_⟩, hillegal⟩
  obtain ⟨hvoice, hresult, hframe⟩ :=
    writeVoice_effect s hv fun V => { V with targetRate := imm16 }
  refine ⟨_, rfl, hvoice, hresult, hframe, fun hinstant i hi => ?_⟩
  obtain ⟨u, hu, htick, -⟩ := exists_exec_tick hi _
  refine ⟨u, hu, ?_⟩
  rw [htick, hvoice]
  exact Voice.tick_of_instant _ hinstant

/-- Settles O9: a pending reset reads the waveform written. -/
theorem wwaveSetsWaveform : Obligations.WwaveSetsWaveform := by
  intro v data imm8 s
  obtain ⟨hlegal, hillegal⟩ :=
    step_present_voiceWrite (op := 2) (i := .wwave v (data.setWidth 8))
      (by rw [← imm8Of_eq_setWidth]; rfl) s
  refine ⟨fun k hv => ⟨hlegal k hv, ?_⟩, hillegal⟩
  obtain ⟨hvoice, hresult, hframe⟩ := writeVoice_effect s hv fun V => { V with wave := imm8 }
  refine ⟨_, rfl, hvoice, hresult, hframe, fun hrst i hi => ?_⟩
  obtain ⟨u, hu, htick, -⟩ := exists_exec_tick hi _
  refine ⟨u, hu, ?_⟩
  rw [htick, hvoice]
  exact Voice.tick_acc_of_rst _ hrst

/-- Settles O10: bit 7 of the volume written decides between reset and advance, the others are the
level. -/
theorem wvolSetsVolume : Obligations.WvolSetsVolume := by
  intro v data imm8 s
  obtain ⟨hlegal, hillegal⟩ :=
    step_present_voiceWrite (op := 3) (i := .wvol v (data.setWidth 8))
      (by rw [← imm8Of_eq_setWidth]; rfl) s
  refine ⟨fun k hv => ⟨hlegal k hv, ?_⟩, hillegal⟩
  obtain ⟨hvoice, hresult, hframe⟩ := writeVoice_effect s hv fun V => { V with vol := imm8 }
  refine ⟨_, rfl, hvoice, hresult, hframe, fun i hi => ?_⟩
  obtain ⟨u, hu, htick, -⟩ := exists_exec_tick hi _
  refine ⟨u, hu, ?_⟩
  rw [htick, hvoice, Voice.tick_contribution]
  refine ⟨Voice.tick_vol _ _, fun hset => ?_, fun hclear => ?_, fun hfull => ?_, fun hzero => ?_⟩
  · exact Voice.tick_acc_of_rst _ ((getLsbD_seven imm8).trans (decide_eq_true hset))
  · exact Voice.tick_acc_of_not_rst _
      ((getLsbD_seven imm8).trans (decide_eq_false (Nat.not_le.mpr hclear)))
  · exact q6_of_full _ (by rwa [level_toNat])
  · have hlevel : level imm8 = 0 := BitVec.eq_of_toNat_eq ((level_toNat imm8).trans hzero)
    rw [hlevel, q6_zero]

end Sys2Proof.Machine
end

section
/-! PROOF. The writes to the noise unit (40_register_writes.md R104 to R106): which words issue
them, what they write, and what the next tick makes of the value written (42_noise.md R160, R161,
R163). -/

namespace Sys2Proof.Machine

/-! ### The words -/

/-- The words of a command with an operand and no voice: `z` and `idx` must be 0 (R75). -/
theorem step_present_noIndexWrite {op : BitVec 4} {data : BitVec 16} {i : Instr}
    (hop : ∀ idx, decodeOp op idx data = decodeNoIndex idx i) (s : State) :
    step (s.present (op ++ 0#1 ++ 0#3 ++ data)) = exec i s ∧
      ∀ (z : BitVec 1) (idx : BitVec 3), z ≠ 0 ∨ idx ≠ 0 →
        step (s.present (op ++ z ++ idx ++ data)) = illegalOutcome s := by
  refine ⟨step_present_legal ((hop 0).trans (decodeNoIndex_eq_ok.mpr ⟨rfl, rfl⟩)) s, fun z idx h =>
    step_present_illegal (h.imp_right fun hidx => ?_) s⟩
  rw [hop]
  exact decodeNoIndex_eq_error.mpr hidx

/-- The state after a write to the noise unit: its registers, the result port and the frame. -/
theorem writeNoise_effect (s : State) (f : Noise → Noise) :
    (s.writeNoise f).noise = f s.noise ∧ (s.writeNoise f).result = .none ∧
      SameOutsideNoise s (s.writeNoise f) := ⟨rfl, rfl, rfl, rfl, rfl, rfl, rfl⟩

/-! ### A pending noise reset -/

theorem rstFlag_clearRst (vol : BitVec 8) : rstFlag (clearRst vol) = false := by
  simp [rstFlag, clearRst, bitRst]

theorem Noise.tick_nvol_rst (N : Noise) : N.tick.nvol.getLsbD 7 = false := by
  rw [Noise.tick_nvol, Noise.resetFlag_nvol]
  exact rstFlag_clearRst N.nvol

theorem Noise.resetFlag_of_rst {N : Noise} (h : rstFlag N.nvol = true) :
    N.resetFlag = { N with nvol := clearRst N.nvol, lfsr := 1 } := if_pos h

theorem Noise.resetFlag_resetFlag (N : Noise) : N.resetFlag.resetFlag = N.resetFlag := by
  have hconsumed : rstFlag N.resetFlag.nvol = false := by
    rw [Noise.resetFlag_nvol, rstFlag_clearRst]
  rw [Noise.resetFlag.eq_def N.resetFlag, hconsumed]
  rfl

/-- A tick with the reset flag set is the tick of the unit that has consumed it (R160). -/
theorem Noise.tick_of_rst {N : Noise} (h : rstFlag N.nvol = true) :
    N.tick = Noise.tick { N with nvol := clearRst N.nvol, lfsr := 1 } := by
  rw [← Noise.resetFlag_of_rst h, Noise.tick, Noise.tick, Noise.resetFlag_resetFlag]

/-! ### The contribution at full scale -/

theorem Noise.tickSum_le (N : Noise) : N.tickSum ≤ 8 := by
  rw [Noise.tickSum, Noise.subSteps_eq]
  dsimp only
  refine (Finset.sum_le_card_nsmul _ _ 1 fun j _ => Bool.toNat_le _).trans_eq ?_
  simp

/-- The sums of a tick have no carry into their copy three bits up (R163). -/
theorem or_shiftLeft_three {n : Nat} (h : n ≤ 8) : n ||| n <<< 3 = 9 * n := by
  interval_cases n <;> rfl

theorem Noise.contribution_of_full {N : Noise} (h : 64 ≤ N.nvol.toNat % 128) :
    N.contribution = 9 * N.tickSum - 32 := by
  have hlevel : level N.tick.nvol = level N.nvol := by
    rw [Noise.tick_nvol, Noise.resetFlag_nvol, level_clearRst]
  rw [Noise.contribution, or_shiftLeft_three N.tickSum_le, hlevel,
    q6_of_full _ (by rwa [level_toNat])]
  push_cast
  rfl

/-! ### The period counter of a tick -/

/-- One turn of a counter of period `p`, in 8 bits whatever the counter holds. -/
def countTurn (p c : BitVec 8) : BitVec 8 := if c = p then 0 else c + 1

theorem Noise.count_ncnt (N : Noise) : N.count.ncnt = countTurn N.nper N.ncnt := by
  unfold Noise.count countTurn
  split <;> rfl

theorem Noise.iterate_count_ncnt (N : Noise) (n : Nat) :
    (Noise.count^[n] N).ncnt = (countTurn N.nper)^[n] N.ncnt := by
  induction n with
  | zero => rfl
  | succ n ih =>
    rw [Function.iterate_succ_apply', Function.iterate_succ_apply', Noise.count_ncnt, ih,
      (N.iterate_count_kept n).1]

/-- The counter of a tick depends on the period, on itself and on how many sub-steps are skipped. -/
theorem Noise.tick_ncnt (N : Noise) :
    N.tick.ncnt = (countTurn N.nper)^[activeSubSteps N.nwave] N.ncnt := by
  rw [Noise.tick, Noise.subSteps_eq, Noise.iterate_count_ncnt, Noise.resetFlag_nper,
    Noise.resetFlag_ncnt, Noise.resetFlag_nwave]

theorem activeSubSteps_congr {a b : BitVec 8} (h : ∀ j < 7, a.getLsbD j = b.getLsbD j) :
    activeSubSteps a = activeSubSteps b := by
  unfold activeSubSteps
  congr 2
  refine List.filter_congr fun j hj => ?_
  rw [h j (by simp at hj; omega)]

/-- With every skip bit set, sub-step 7 alone is left. -/
theorem activeSubSteps_of_all_skipped {nwave : BitVec 8} (h : nwave &&& 0x7F = 0x7F) :
    activeSubSteps nwave = 1 := by
  have hbits (j : Nat) (hj : j < 7) : nwave.getLsbD j = (0x7F : BitVec 8).getLsbD j := by
    have hmask : (0x7F : BitVec 8).getLsbD j = true := by interval_cases j <;> rfl
    rw [← h, BitVec.getLsbD_and, hmask, Bool.and_true]
  rw [activeSubSteps_congr hbits]
  decide

/-- `PERIODIC` skips nothing. -/
theorem activeSubSteps_xor_periodic (nwave : BitVec 8) :
    activeSubSteps (nwave ^^^ 0x80) = activeSubSteps nwave := by
  refine activeSubSteps_congr fun j hj => ?_
  have hmask : (0x80 : BitVec 8).getLsbD j = false := by interval_cases j <;> rfl
  rw [BitVec.getLsbD_xor, hmask, Bool.xor_false]

/-! ### The three writes -/

/-- Settles O11: the counter is zeroed by the write itself, without a comparison of periods. -/
theorem wnperSetsPeriodZeroesCounter : Obligations.WnperSetsPeriodZeroesCounter := by
  intro data imm8 s
  obtain ⟨hlegal, hillegal⟩ := step_present_noIndexWrite (op := 4) (data := data)
    (i := .wnper (data.setWidth 8)) (fun _ => by rw [← imm8Of_eq_setWidth]; rfl) s
  exact ⟨hlegal, ⟨_, rfl, writeNoise_effect s _⟩, hillegal⟩

/-- Settles O12: the reset flag is consumed before the sub-steps, the level is read after them. -/
theorem wnvolSetsVolume : Obligations.WnvolSetsVolume := by
  intro data imm8 s
  obtain ⟨hlegal, hillegal⟩ := step_present_noIndexWrite (op := 5) (data := data)
    (i := .wnvol (data.setWidth 8)) (fun _ => by rw [← imm8Of_eq_setWidth]; rfl) s
  obtain ⟨hnoise, hresult, hframe⟩ := writeNoise_effect s fun N => { N with nvol := imm8 }
  refine ⟨hlegal, ⟨_, rfl, hnoise, hresult, hframe, fun hrst i hi => ?_, fun hfull => ?_⟩, hillegal⟩
  · obtain ⟨u, hu, -, htick⟩ := exists_exec_tick hi _
    refine ⟨u, hu, ?_, htick ▸ Noise.tick_nvol_rst _⟩
    rw [htick, hnoise]
    exact Noise.tick_of_rst hrst
  · exact Noise.contribution_of_full hfull

/-- Settles O13: the counter of a tick turns once for each sub-step that bits 6:0 do not skip. -/
theorem wnwaveSetsWaveform : Obligations.WnwaveSetsWaveform := by
  intro data imm8 s
  obtain ⟨hlegal, hillegal⟩ := step_present_noIndexWrite (op := 6) (data := data)
    (i := .wnwave (data.setWidth 8)) (fun _ => by rw [← imm8Of_eq_setWidth]; rfl) s
  obtain ⟨hnoise, hresult, hframe⟩ := writeNoise_effect s fun N => { N with nwave := imm8 }
  refine ⟨hlegal, ⟨_, rfl, hnoise, hresult, hframe, fun hskip i hi => ?_, fun i hi => ?_⟩, hillegal⟩
  · obtain ⟨u, hu, -, htick⟩ := exists_exec_tick hi _
    refine ⟨u, hu, ?_⟩
    rw [htick, hnoise, Noise.tick_ncnt, activeSubSteps_of_all_skipped hskip]
    rfl
  · obtain ⟨u, hu, -, htick⟩ := exists_exec_tick hi (s.writeNoise fun N => { N with nwave := imm8 })
    obtain ⟨u', hu', -, htick'⟩ :=
      exists_exec_tick hi (s.writeNoise fun N => { N with nwave := imm8 ^^^ 0x80 })
    refine ⟨_, u, u', rfl, hu, hu', ?_⟩
    rw [htick, htick', Noise.tick_ncnt, Noise.tick_ncnt, State.writeNoise_eq, State.writeNoise_eq,
      activeSubSteps_xor_periodic]

end Sys2Proof.Machine
end

section
/-! PROOF. RESET (40_register_writes.md R107): the synthesis state is a constructed core's, and what
a tick makes of it depends on nothing else. -/

namespace Sys2Proof.Machine

/-- The words of a command without operands: `z`, `idx` and `data` must be 0 (R75). -/
theorem step_present_plain {op : BitVec 4} {i : Instr}
    (hop : ∀ idx data, decodeOp op idx data = decodePlain idx data i) (s : State) :
    step (s.present (op ++ 0#1 ++ 0#3 ++ 0#16)) = exec i s ∧
      ∀ (z : BitVec 1) (idx : BitVec 3) (data : BitVec 16), z ≠ 0 ∨ idx ≠ 0 ∨ data ≠ 0 →
        step (s.present (op ++ z ++ idx ++ data)) = illegalOutcome s := by
  refine ⟨step_present_legal ((hop 0 0).trans (decodePlain_eq_ok.mpr ⟨rfl, rfl, rfl⟩)) s,
    fun z idx data h => step_present_illegal (h.imp_right fun hfield => ?_) s⟩
  rw [hop]
  exact decodePlain_eq_error.mpr hfield

theorem sameSynthesis_resetSynth (s : State) : SameSynthesis State.reset s.resetSynth :=
  ⟨rfl, rfl, rfl⟩

theorem coreTick_resetSynth_silent (s : State) : (coreTick s.resetSynth).2 = Frame.silent := by
  rw [(sameSynthesis_resetSynth s).coreTick_snd]
  decide

theorem State.resetSynth_voice (s : State) (v : Fin Config.numVoices) :
    s.resetSynth.voice v = Voice.initial := Vector.getElem_replicate _

/-- Settles O14: RESET stores constants, and a tick of the construction state is silent. -/
theorem resetClearsSynthesis : Obligations.ResetClearsSynthesis := by
  intro s
  obtain ⟨hlegal, hillegal⟩ := step_present_plain (op := 7) (i := .reset) (fun _ _ => rfl) s
  refine ⟨hlegal, ⟨s.resetSynth.emit .none, rfl, s.resetSynth_voice, rfl, rfl, rfl, rfl, rfl, rfl,
    rfl, _, rfl, ?_⟩, hillegal⟩
  rw [State.emit_result]
  exact congrArg Result.frame (coreTick_resetSynth_silent s)

end Sys2Proof.Machine
end

section
/-! PROOF. Steps 1 and 2 of a voice's tick in numbers (41_voice.md R130, R131). -/

namespace Sys2Proof.Machine

/-! ### The slew -/

theorem slewToward_toNat (target rate : BitVec 14) :
    (slewToward target rate).toNat =
      if rate.toNat < target.toNat then rate.toNat + 1
      else if target.toNat < rate.toNat then rate.toNat - 1
      else rate.toNat := by
  have htarget := target.isLt
  have hrate := rate.isLt
  simp only [slewToward, BitVec.lt_def]
  split
  · rw [BitVec.toNat_add]
    exact Nat.mod_eq_of_lt (by simp; omega)
  · split
    next h =>
      have hone : 1 ≤ rate.toNat := by omega
      exact BitVec.toNat_sub_of_le (y := 1) hone
    · rfl

theorem slewGateOpen_iff (shift sn : Nat) :
    slewGateOpen shift sn = true ↔ sn % 2 ^ (shift + 2) = 0 := beq_iff_eq

theorem Voice.slew_realRate_toNat (sn : Nat) (V : Voice) :
    (V.slew sn).realRate.toNat =
      if V.targetRate.toNat / 2 ^ 14 = 0 then V.targetRate.toNat % 2 ^ 14
      else if sn % 2 ^ (V.targetRate.toNat / 2 ^ 14 + 2) = 0 then
        if V.realRate.toNat < V.targetRate.toNat % 2 ^ 14 then V.realRate.toNat + 1
        else if V.targetRate.toNat % 2 ^ 14 < V.realRate.toNat then V.realRate.toNat - 1
        else V.realRate.toNat
      else V.realRate.toNat := by
  unfold Voice.slew
  simp only [slewGateOpen_iff, slewClass_eq]
  split
  · exact target14_toNat _
  · split
    · exact (slewToward_toNat _ _).trans (by rw [target14_toNat])
    · rfl

/-- Settles O20: step 2 of the tick keeps what the slew makes of the rate. -/
theorem tickSlewsRealRate : Obligations.TickSlewsRealRate := by
  intro i s hi
  obtain ⟨t, ht, hvoice, -⟩ := exists_exec_tick hi s
  refine ⟨t, ht, fun v => ?_⟩
  rw [hvoice, Voice.tick_targetRate, Voice.tick_realRate]
  exact ⟨rfl, Voice.slew_realRate_toNat _ _⟩

/-! ### Reset or advance -/

theorem Voice.tick_wave_of_rst (sn : Nat) {V : Voice} (h : V.vol.getLsbD 7 = true) :
    (V.tick sn).wave = V.wave := by
  have hrst : rstFlag (V.slew sn).vol = true := by rw [Voice.slew_vol]; exact h
  rw [Voice.tick, Voice.resetOrAdvance_of_rst hrst, Voice.slew_wave]

/-- The carry is that of the sum with the slewed rate. -/
theorem Voice.tick_wave_of_not_rst (sn : Nat) {V : Voice} (h : V.vol.getLsbD 7 = false) :
    (V.tick sn).wave =
      if 65536 ≤ V.acc.toNat + (V.tick sn).realRate.toNat + 1 ∧ V.wave.getLsbD 4 = true then
        V.wave ^^^ 0x08
      else V.wave := by
  have hrst : rstFlag (V.slew sn).vol = false := by rw [Voice.slew_vol]; exact h
  rw [Voice.tick_realRate, Voice.tick, Voice.resetOrAdvance_of_not_rst hrst]
  simp [carryOut, togcFlag, bitTogC, flipInvA, maskOf, bitInvA, Voice.phaseSum]

theorem Voice.tick_vol_of_not_rst (sn : Nat) {V : Voice} (h : V.vol.getLsbD 7 = false) :
    (V.tick sn).vol = V.vol := by
  rw [Voice.tick_vol, clearRst_of_not_rst h]

/-- Settles O21: a set reset flag excludes the advance, and the carry with it. -/
theorem tickResetsOrAdvances : Obligations.TickResetsOrAdvances := by
  intro i s hi
  obtain ⟨t, ht, hvoice, -⟩ := exists_exec_tick hi s
  refine ⟨t, ht, fun v => ?_⟩
  rw [hvoice]
  exact ⟨fun hrst => ⟨Voice.tick_vol _ _, Voice.tick_wave_of_rst _ hrst,
      Voice.tick_acc_of_rst _ hrst⟩,
    fun hclear => ⟨Voice.tick_vol_of_not_rst _ hclear, Voice.tick_acc_of_not_rst _ hclear,
      Voice.tick_wave_of_not_rst _ hclear⟩⟩

end Sys2Proof.Machine
end

section
/-! PROOF. Steps 3 and 4 of a voice's tick in numbers (41_voice.md R132, R133): the waveform value
and the multiply that scales it. -/

namespace Sys2Proof.Machine

/-! ### The waveform value -/

/-- Inversions compose by parity. -/
theorem invertIf_invertIf (a b : Bool) (r : BitVec 6) :
    invertIf a (invertIf b r) = invertIf (a ^^ b) r := by
  cases a with
  | false => rw [Bool.false_xor]; rfl
  | true =>
    cases b with
    | false => rfl
    | true => exact (BitVec.xor_assoc r 63 63).trans (by simp [invertIf])

theorem invertIf_toNat (a : Bool) (r : BitVec 6) :
    (invertIf a r).toNat = if a then 63 - r.toNat else r.toNat := by
  cases a with
  | false => rfl
  | true =>
    have hnot : r ^^^ 63 = ~~~r := BitVec.xor_allOnes
    rw [invertIf, if_pos rfl, if_pos rfl, hnot, BitVec.toNat_not]

/-- The base of the waveform value: the accumulator's top 6 bits with OUTA (R132). -/
def waveBase (acc : BitVec 16) (w : BitVec 8) : BitVec 6 :=
  if w.getLsbD bitOutA then acc.extractLsb' 10 6 else 0

theorem waveBase_toNat (acc : BitVec 16) (w : BitVec 8) :
    (waveBase acc w).toNat = if w.getLsbD 5 then acc.toNat / 1024 else 0 := by
  have hacc := acc.isLt
  unfold waveBase bitOutA
  split
  · rw [BitVec.extractLsb'_toNat, Nat.shiftRight_eq_div_pow]
    omega
  · rfl

/-- The top bits of the accumulator are 0 in the first part of the phase range. -/
theorem extractLsb'_top_eq_zero (acc : BitVec 16) {start len : Nat} (h : start + len = 16) :
    (acc.extractLsb' start len == 0) = decide (acc.toNat < 2 ^ start) := by
  have hacc : acc.toNat < 2 ^ start * 2 ^ len := by
    rw [← Nat.pow_add, h]
    exact acc.isLt
  have hfit : acc.toNat / 2 ^ start < 2 ^ len := Nat.div_lt_of_lt_mul hacc
  rw [Bool.beq_eq_decide_eq, decide_eq_decide, ← BitVec.toNat_inj, BitVec.extractLsb'_toNat,
    Nat.shiftRight_eq_div_pow, Nat.mod_eq_of_lt hfit]
  exact Nat.div_eq_zero_iff_lt (Nat.two_pow_pos start)

theorem wavefn_eq (acc : BitVec 16) (w : BitVec 8) :
    wavefn acc w =
      invertIf (w.getLsbD 3 ^^ (w.getLsbD 2 && decide (acc.toNat < 0x8000)) ^^
        (w.getLsbD 1 && decide (acc.toNat < 0x4000)) ^^
        (w.getLsbD 0 && decide (acc.toNat < 0x2000))) (waveBase acc w) := by
  have h8 := extractLsb'_top_eq_zero acc (start := 13) (len := 3) rfl
  have h4 := extractLsb'_top_eq_zero acc (start := 14) (len := 2) rfl
  have h2 := extractLsb'_top_eq_zero acc (start := 15) (len := 1) rfl
  rw [wavefn, h8, h4, h2, invertIf_invertIf, invertIf_invertIf, invertIf_invertIf]
  rfl

/-- Four flags sum to an even number exactly when their exclusive or is false. -/
theorem toNat_sum_even_iff (a b c d : Bool) :
    (a.toNat + b.toNat + c.toNat + d.toNat) % 2 = 0 ↔ (d ^^ c ^^ b ^^ a) = false := by
  revert a b c d
  decide

theorem level_eq_setWidth (vol : BitVec 8) : level vol = vol.setWidth 7 :=
  BitVec.eq_of_toNat_eq ((level_toNat vol).trans (BitVec.toNat_setWidth 7 vol).symm)

theorem Voice.contribution_eq (V : Voice) :
    V.contribution = q6 (wavefn V.acc V.wave).toNat (V.vol.setWidth 7) := by
  rw [Voice.contribution, level_eq_setWidth]

theorem voiceStep_eq (sn : Nat) (p : State × Frame) (v : Fin Config.numVoices) :
    voiceStep sn p v = (p.1.setVoice v ((p.1.voice v).tick sn),
      p.2.addTo (panOf ((p.1.voice v).tick sn).wave) ((p.1.voice v).tick sn).contribution) := rfl

/-- Settles O22: the inversions compose by parity, and a voice's step adds the contribution of the
voice it stores. -/
theorem waveformIsInvertedBase : Obligations.WaveformIsInvertedBase := by
  refine ⟨fun acc w => ?_, fun sn p v => ?_⟩
  · rw [wavefn_eq, invertIf_toNat, waveBase_toNat]
    simp only [toNat_sum_even_iff]
    generalize (w.getLsbD 3 ^^ _ ^^ _ ^^ _) = odd
    cases odd <;> rfl
  · rw [voiceStep_eq, Voice.contribution_eq]

/-! ### The multiply -/

theorem q6_of_lt (a : Nat) {b : BitVec 7} (h : b.toNat < 64) :
    q6 a b = (((a : Int) - 32) * b.toNat) / 64 := by
  have hbit : b.getLsbD 6 = false := by
    rw [BitVec.getLsbD, Nat.testBit_eq_decide_div_mod_eq]
    exact decide_eq_false (by omega)
  rw [q6, hbit, if_neg Bool.false_ne_true]
  generalize ((a : Int) - 32) * b.toNat = product
  cases product with
  | ofNat n => exact congrArg Int.ofNat (Nat.shiftRight_eq_div_pow n 6)
  | negSucc n => exact congrArg Int.negSucc (Nat.shiftRight_eq_div_pow n 6)

theorem q6_floor (a : Nat) {b : BitVec 7} (h : b.toNat < 64) :
    64 * q6 a b ≤ ((a : Int) - 32) * b.toNat ∧ ((a : Int) - 32) * b.toNat < 64 * q6 a b + 64 := by
  rw [q6_of_lt a h]
  omega

/-- The multiply moves its first operand toward 0, never past it. -/
theorem q6_between (a : Nat) (b : BitVec 7) :
    min ((a : Int) - 32) 0 ≤ q6 a b ∧ q6 a b ≤ max ((a : Int) - 32) 0 := by
  by_cases h : b.toNat < 64
  · obtain ⟨hlo, hhi⟩ := q6_floor a h
    obtain ⟨hb0, hb64⟩ : (0 : Int) ≤ b.toNat ∧ (b.toNat : Int) ≤ 64 := by omega
    rcases le_total 0 ((a : Int) - 32) with hx | hx
    · have hnonneg := mul_nonneg hx hb0
      have hle := mul_le_mul_of_nonneg_left hb64 hx
      omega
    · have hnonpos := mul_nonpos_of_nonpos_of_nonneg hx hb0
      have hle := mul_le_mul_of_nonpos_left hb64 hx
      omega
  · rw [q6_of_full a (Nat.not_lt.mp h)]
    exact ⟨min_le_left _ _, le_max_left _ _⟩

theorem q6_thirtyTwo (b : BitVec 7) : q6 32 b = 0 := by
  obtain ⟨hlo, hhi⟩ := q6_between 32 b
  exact le_antisymm hhi hlo

theorem Voice.contribution_bounds (V : Voice) : -32 ≤ V.contribution ∧ V.contribution ≤ 31 := by
  have hvalue := (wavefn V.acc V.wave).isLt
  obtain ⟨hlo, hhi⟩ := q6_between (wavefn V.acc V.wave).toNat (level V.vol)
  rw [Voice.contribution]
  omega

/-- Settles O23: the product is between 0 and its first operand, so the ranges are those of
`a - 32`. -/
theorem multiplySaturatesAndFloors : Obligations.MultiplySaturatesAndFloors := by
  refine ⟨fun V => ⟨V.contribution_eq, V.contribution_bounds⟩, fun a b => ?_⟩
  obtain ⟨hlo, hhi⟩ := q6_between a b
  refine ⟨q6_of_full a, q6_floor a, ?_, ?_, fun ha => ?_, fun ha => ?_⟩
  · rintro rfl
    exact q6_zero a
  · rintro rfl
    exact q6_thirtyTwo b
  · omega
  · omega

end Sys2Proof.Machine
end

section
/-! PROOF. The buses of a tick (41_voice.md R134, R135; 42_noise.md R164): each bus is a sum, so the
order in which the voices and the noise unit are added to it cannot be observed. -/

namespace Sys2Proof.Machine

/-! ### The buses -/

/-- The bus of a frame that a pan selects. -/
def Frame.bus (f : Frame) : Pan → Int
  | .center => f.center
  | .right => f.right
  | .left => f.left
  | .boosted => f.boosted

theorem Frame.bus_addTo (f : Frame) (p q : Pan) (c : Int) :
    (f.addTo p c).bus q = f.bus q + if p = q then c else 0 := by
  cases p <;> cases q <;> simp [Frame.addTo, Frame.bus]

theorem Frame.ext_bus {f g : Frame} (h : ∀ p, f.bus p = g.bus p) : f = g := by
  obtain ⟨c, r, l, b⟩ := f
  exact congr (congr (congr (congrArg Frame.mk (h .center)) (h .right)) (h .left)) (h .boosted)

theorem Frame.addTo_comm (f : Frame) (p q : Pan) (c d : Int) :
    (f.addTo p c).addTo q d = (f.addTo q d).addTo p c := by
  refine Frame.ext_bus fun r => ?_
  simp only [Frame.bus_addTo]
  exact add_right_comm _ _ _

theorem Frame.bus_silent (p : Pan) : Frame.silent.bus p = 0 := by
  cases p <;> rfl

/-- Adding a list of contributions adds to each bus the sum of those it is given. -/
theorem Frame.bus_foldl_addTo {α : Type} (pan : α → Pan) (c : α → Int) (vs : List α) (f : Frame)
    (q : Pan) :
    (vs.foldl (fun f v => f.addTo (pan v) (c v)) f).bus q =
      f.bus q + (vs.map fun v => if pan v = q then c v else 0).sum := by
  induction vs generalizing f with
  | nil => exact (add_zero _).symm
  | cons v vs ih =>
    rw [List.foldl_cons, ih, Frame.bus_addTo, List.map_cons, List.sum_cons, add_assoc]

theorem sum_map_voiceOrder (c : Fin Config.numVoices → Int) :
    (voiceOrder.map c).sum = ∑ v, c v := by
  rw [Fin.sum_univ_def]
  rfl

/-! ### The sums of a tick -/

/-- The value of the pan field that selects a bus (R25). -/
def Pan.code : Pan → Nat
  | .center => 0
  | .right => 1
  | .left => 2
  | .boosted => 3

theorem panOf_eq_iff (wave : BitVec 8) (p : Pan) : panOf wave = p ↔ wave.toNat / 64 = p.code := by
  have hwave := wave.isLt
  have hfield : (wave.extractLsb' bitPan 2).toNat = wave.toNat / 64 := by
    rw [bitPan, BitVec.extractLsb'_toNat, Nat.shiftRight_eq_div_pow]
    omega
  have hcode : wave.toNat / 64 < 4 := by omega
  rw [panOf, hfield]
  generalize wave.toNat / 64 = code at *
  interval_cases code <;> cases p <;> simp [Pan.code]

/-- The frame of a tick, bus by bus, read from the voices the tick leaves. -/
theorem coreTick_bus (s : State) (p : Pan) :
    (coreTick s).2.bus p =
      (∑ v, if ((coreTick s).1.voice v).wave.toNat / 64 = p.code then
        ((coreTick s).1.voice v).contribution else 0) +
        if Pan.boosted = p then s.noise.contribution else 0 := by
  rw [coreTick_frame, Frame.bus_addTo, Frame.bus_foldl_addTo, Frame.bus_silent, zero_add,
    sum_map_voiceOrder]
  simp only [panOf_eq_iff, coreTick_voice]

theorem Noise.contribution_eq (N : Noise) :
    N.contribution = q6 (9 * N.tickSum) (N.tick.nvol.setWidth 7) := by
  rw [Noise.contribution, or_shiftLeft_three N.tickSum_le, level_eq_setWidth]

theorem frameTick_voice (s : State) (v : Fin Config.numVoices) :
    (frameTick s).voice v = (coreTick s).1.voice v := by
  rw [frameTick, State.emit_voice]

theorem frameTick_noise (s : State) : (frameTick s).noise = s.noise.tick := by
  rw [frameTick, State.emit_noise, coreTick_noise]

/-- Settles O24: the four buses of `coreTick_bus`, the noise on the last. -/
theorem frameSumsContributions : Obligations.FrameSumsContributions := by
  intro s
  refine ⟨frameTick s, (coreTick s).2, exec_frame s, State.emit_result _ _, ?_⟩
  simp only [frameTick_voice, frameTick_noise, ← Voice.contribution_eq, ← Noise.contribution_eq]
  exact ⟨(coreTick_bus s .center).trans (add_zero _), (coreTick_bus s .right).trans (add_zero _),
    (coreTick_bus s .left).trans (add_zero _), coreTick_bus s .boosted⟩

/-! ### Steps of different units commute -/

theorem State.setVoice_comm (s : State) {u v : Fin Config.numVoices} (h : u ≠ v) (U V : Voice) :
    (s.setVoice u U).setVoice v V = (s.setVoice v V).setVoice u U := by
  have hval : u.val ≠ v.val := fun e => h (Fin.ext e)
  simp only [State.setVoice, Vector.set_comm U V hval]

/-- A voice's step does not read another voice. -/
theorem voiceStep_comm (sn : Nat) (p : State × Frame) (u v : Fin Config.numVoices) :
    voiceStep sn (voiceStep sn p u) v = voiceStep sn (voiceStep sn p v) u := by
  by_cases h : u = v
  · rw [h]
  · rw [voiceStep_eq sn (voiceStep sn p u) v, voiceStep_eq sn (voiceStep sn p v) u,
      voiceStep_voice_ne sn p (Ne.symm h), voiceStep_voice_ne sn p h]
    exact Prod.ext (State.setVoice_comm _ h _ _) (Frame.addTo_comm _ _ _ _ _)

theorem noiseStep_voiceStep (sn : Nat) (p : State × Frame) (v : Fin Config.numVoices) :
    noiseStep (voiceStep sn p v) = voiceStep sn (noiseStep p) v :=
  Prod.ext rfl (p.2.addTo_comm (panOf ((p.1.voice v).tick sn).wave) .boosted _ _)

/-- Settles O25: sums commute, and each unit's registers are its own. -/
theorem unitStepsCommute : Obligations.UnitStepsCommute := by
  refine ⟨voiceStep_comm, noiseStep_voiceStep, fun i j s s' v hi hj hvoice hsn => ?_⟩
  obtain ⟨t, ht, htick, -⟩ := exists_exec_tick hi s
  obtain ⟨t', ht', htick', -⟩ := exists_exec_tick hj s'
  exact ⟨t, t', ht, ht', by rw [htick, htick', hvoice, hsn]⟩

end Sys2Proof.Machine
end

section
/-! PROOF. A voice over a run of FRAMEs (41_voice.md R130, R136): its distance from the target falls
by one at each open gate, and a held voice moves its phase by a constant. -/

namespace Sys2Proof.Machine

/-! ### A voice over a run -/

/-- Tick `n` of a run finds `sample_number` grown by `n`. -/
theorem iterate_frameTick_succ_voice (s : State) (n : Nat) (v : Fin Config.numVoices) :
    (frameTick^[n + 1] s).voice v = ((frameTick^[n] s).voice v).tick (s.sampleNumber + n) := by
  rw [Function.iterate_succ_apply', frameTick_voice, coreTick_voice, frameTick_countsOne.iterate]

theorem iterate_frameTick_targetRate (s : State) (n : Nat) (v : Fin Config.numVoices) :
    ((frameTick^[n] s).voice v).targetRate = (s.voice v).targetRate := by
  induction n with
  | zero => rfl
  | succ n ih => rw [iterate_frameTick_succ_voice, Voice.tick_targetRate, ih]

/-! ### The slew -/

/-- How far `real_rate` is from the 14-bit target. -/
def Voice.slewDistance (V : Voice) : Nat :=
  V.realRate.toNat - V.targetRate.toNat % 2 ^ 14 + (V.targetRate.toNat % 2 ^ 14 - V.realRate.toNat)

/-- The ticks from one open slew gate to the next (R130). -/
def Voice.gatePeriod (V : Voice) : Nat := 2 ^ (V.targetRate.toNat / 2 ^ 14 + 2)

theorem Voice.gatePeriod_pos (V : Voice) : 0 < V.gatePeriod := Nat.two_pow_pos _

theorem Voice.slewDistance_eq_zero {V : Voice} :
    V.slewDistance = 0 ↔ V.realRate.toNat = V.targetRate.toNat % 2 ^ 14 := by
  unfold Voice.slewDistance
  omega

/-- Class 0 needs no gate. -/
theorem Voice.tick_slewDistance_of_instant (sn : Nat) {V : Voice}
    (h : V.targetRate.toNat / 2 ^ 14 = 0) : (V.tick sn).slewDistance = 0 := by
  rw [Voice.slewDistance_eq_zero, Voice.tick_targetRate, Voice.tick_realRate,
    Voice.slew_realRate_toNat, if_pos h]

theorem Voice.tick_slewDistance (sn : Nat) {V : Voice} (h : V.targetRate.toNat / 2 ^ 14 ≠ 0) :
    (V.tick sn).slewDistance = V.slewDistance - if V.gatePeriod ∣ sn then 1 else 0 := by
  rw [Voice.slewDistance, Voice.tick_targetRate, Voice.tick_realRate, Voice.slew_realRate_toNat,
    if_neg h, Voice.gatePeriod, Voice.slewDistance]
  simp only [Nat.dvd_iff_mod_eq_zero]
  generalize V.targetRate.toNat % 2 ^ 14 = target
  by_cases hopen : sn % 2 ^ (V.targetRate.toNat / 2 ^ 14 + 2) = 0
  · simp only [if_pos hopen]
    split
    · omega
    · split <;> omega
  · simp only [if_neg hopen]
    rfl

/-- The number of multiples of `p` below `n`. -/
def multiplesBelow (p n : Nat) : Nat := (n + (p - 1)) / p

theorem multiplesBelow_succ {p : Nat} (hp : 0 < p) (n : Nat) :
    multiplesBelow p (n + 1) = multiplesBelow p n + if p ∣ n then 1 else 0 := by
  have hsum : n + (p - 1) + 1 = n + p := by omega
  rw [multiplesBelow, Nat.add_right_comm, Nat.succ_div, hsum]
  simp only [Nat.dvd_add_self_right]
  rfl

/-- A stretch of `d` periods holds `d` multiples wherever it starts. -/
theorem add_le_multiplesBelow {p : Nat} (hp : 0 < p) {d n : Nat} (h : p * d ≤ n) (m : Nat) :
    multiplesBelow p m + d ≤ multiplesBelow p (m + n) := by
  rw [multiplesBelow, ← Nat.add_mul_div_left _ d hp]
  exact Nat.div_le_div_right (by omega)

/-- Each open gate of a run brings the rate one step nearer. -/
theorem iterate_frameTick_slewDistance (s : State) {v : Fin Config.numVoices}
    (h : (s.voice v).targetRate.toNat / 2 ^ 14 ≠ 0) (n : Nat) :
    ((frameTick^[n] s).voice v).slewDistance =
      (s.voice v).slewDistance + multiplesBelow (s.voice v).gatePeriod s.sampleNumber -
        multiplesBelow (s.voice v).gatePeriod (s.sampleNumber + n) := by
  induction n with
  | zero => exact (Nat.add_sub_cancel _ _).symm
  | succ n ih =>
    have htarget := iterate_frameTick_targetRate s n v
    have hperiod : ((frameTick^[n] s).voice v).gatePeriod = (s.voice v).gatePeriod := by
      rw [Voice.gatePeriod, htarget, Voice.gatePeriod]
    rw [iterate_frameTick_succ_voice, Voice.tick_slewDistance _ (by rwa [htarget]), ih, hperiod,
      Nat.sub_sub, ← multiplesBelow_succ (Voice.gatePeriod_pos _), Nat.add_assoc s.sampleNumber]

/-- Settles O26: a class 0 voice is at its target after any tick; otherwise a stretch of as many
gate periods as the distance holds as many open gates. -/
theorem slewReachesTarget : Obligations.SlewReachesTarget := by
  intro s v n hn hpos
  have htarget := iterate_frameTick_targetRate s n v
  refine ⟨_, runInstrs_replicate exec_frame n s, htarget, ?_⟩
  rw [← htarget, ← Voice.slewDistance_eq_zero]
  by_cases hclass : (s.voice v).targetRate.toNat / 2 ^ 14 = 0
  · obtain ⟨m, rfl⟩ := Nat.exists_eq_add_one.mpr hpos
    rw [iterate_frameTick_succ_voice]
    refine Voice.tick_slewDistance_of_instant _ ?_
    rw [iterate_frameTick_targetRate, hclass]
  · rw [iterate_frameTick_slewDistance s hclass]
    exact Nat.sub_eq_zero_of_le ((Nat.add_comm _ _).trans_le
      (add_le_multiplesBelow (Voice.gatePeriod_pos _) hn _))

/-! ### A held voice -/

/-- At its target and with no pending reset (R136). -/
def Voice.Held (V : Voice) : Prop :=
  V.realRate.toNat = V.targetRate.toNat % 2 ^ 14 ∧ V.vol.getLsbD 7 = false

theorem Voice.Held.tick_realRate {V : Voice} (h : V.Held) (sn : Nat) :
    (V.tick sn).realRate = V.realRate := by
  obtain ⟨hrate, -⟩ := h
  apply BitVec.eq_of_toNat_eq
  rw [Voice.tick_realRate, Voice.slew_realRate_toNat, ← hrate]
  simp

theorem Voice.Held.tick {V : Voice} (h : V.Held) (sn : Nat) : (V.tick sn).Held := by
  have ⟨hrate, hrst⟩ := h
  refine ⟨?_, ?_⟩
  · rw [h.tick_realRate, Voice.tick_targetRate, hrate]
  · rw [Voice.tick_vol_of_not_rst sn hrst, hrst]

theorem Voice.Held.tick_acc {V : Voice} (h : V.Held) (sn : Nat) :
    (V.tick sn).acc.toNat = (V.acc.toNat + (V.realRate.toNat + 1)) % 65536 := by
  have ⟨_, hrst⟩ := h
  rw [Voice.tick_acc_of_not_rst sn hrst, h.tick_realRate, Nat.add_assoc]

theorem Voice.Held.iterate_frameTick {s : State} {v : Fin Config.numVoices}
    (h : (s.voice v).Held) (n : Nat) :
    ((frameTick^[n] s).voice v).Held ∧
      ((frameTick^[n] s).voice v).realRate = (s.voice v).realRate ∧
      ((frameTick^[n] s).voice v).acc.toNat =
        ((s.voice v).acc.toNat + n * ((s.voice v).realRate.toNat + 1)) % 65536 := by
  induction n with
  | zero =>
    refine ⟨h, rfl, ?_⟩
    rw [Nat.zero_mul, Nat.add_zero]
    exact (Nat.mod_eq_of_lt (s.voice v).acc.isLt).symm
  | succ n ih =>
    obtain ⟨hheld, hrate, hacc⟩ := ih
    rw [iterate_frameTick_succ_voice]
    refine ⟨hheld.tick _, (hheld.tick_realRate _).trans hrate, ?_⟩
    rw [hheld.tick_acc, hrate, hacc, Nat.mod_add_mod, Nat.add_assoc, Nat.add_one_mul]

/-- `n` steps of `r` close a circle of `m` exactly when `n` is a multiple of the order of `r`. -/
theorem dvd_mul_iff_div_gcd_dvd {m : Nat} (hm : m ≠ 0) (n r : Nat) :
    m ∣ n * r ↔ m / Nat.gcd m r ∣ n := by
  rw [← ZMod.addOrderOf_coe r hm, addOrderOf_dvd_iff_nsmul_eq_zero, nsmul_eq_mul, ← Nat.cast_mul,
    ZMod.natCast_eq_zero_iff]

/-- A 16-bit register moved by `d` is as before exactly when `d` is a multiple of 65536. -/
theorem eq_iff_dvd_of_toNat_eq_add {a b : BitVec 16} {d : Nat}
    (h : b.toNat = (a.toNat + d) % 65536) : b = a ↔ 65536 ∣ d := by
  have ha := a.isLt
  rw [← BitVec.toNat_inj, h]
  omega

/-- Settles O27: the phase is a sum of equal steps, and returns when they close the circle. -/
theorem heldVoiceIsPeriodic : Obligations.HeldVoiceIsPeriodic := by
  intro s v n hrate hrst
  obtain ⟨-, -, hacc⟩ := Voice.Held.iterate_frameTick (s := s) (v := v) ⟨hrate, hrst⟩ n
  refine ⟨_, runInstrs_replicate exec_frame n s, hacc, ?_⟩
  rw [eq_iff_dvd_of_toNat_eq_add hacc, dvd_mul_iff_div_gcd_dvd (by decide)]

end Sys2Proof.Machine
end

section
/-! PROOF. The noise unit's shift and contribution in numbers (42_noise.md R162, R163): the shift
puts the feedback above the register's upper 14 bits, the contribution is a multiply of 9 times the
sum. -/

namespace Sys2Proof.Machine

/-! ### The shift -/

/-- The bit a shift of the LFSR puts on top (R162). -/
def feedback (periodic : Bool) (l : BitVec 15) : Bool :=
  l.getLsbD 0 ^^ l.getLsbD (if periodic then 6 else 1)

theorem lfsrShift_eq_cons (periodic : Bool) (l : BitVec 15) :
    lfsrShift periodic l = (l.extractLsb' 1 14).cons (feedback periodic l) := by
  refine BitVec.eq_of_getLsbD_eq fun j hj => ?_
  rw [getLsbD_lfsrShift periodic l hj, BitVec.getLsbD_cons]
  split
  · rfl
  next h =>
    have hlow : j < 14 := by omega
    simp [hlow, Nat.add_comm]

/-- The feedback is the parity of bit 0 and the tap. -/
theorem feedback_toNat (periodic : Bool) (l : BitVec 15) :
    (feedback periodic l).toNat = (l.toNat + l.toNat / (if periodic then 2 ^ 6 else 2)) % 2 := by
  have hxor (a b : Bool) : (a ^^ b).toNat = (a.toNat + b.toNat) % 2 := by
    cases a <;> cases b <;> rfl
  rw [feedback, hxor, BitVec.getLsbD, BitVec.getLsbD, Nat.toNat_testBit, Nat.toNat_testBit]
  cases periodic
  · simp
  · simp

/-- Settles O28: the feedback stands in bit 14 above the 14 bits that move down. -/
theorem lfsrShiftsWithFeedback : Obligations.LfsrShiftsWithFeedback := by
  refine ⟨fun periodic l => ?_, fun N => ?_⟩
  · have hl := l.isLt
    have hupper : (l.extractLsb' 1 14).toNat = l.toNat / 2 := by
      rw [BitVec.extractLsb'_toNat, Nat.shiftRight_eq_div_pow]
      omega
    rw [lfsrShift_eq_cons, BitVec.toNat_cons', hupper, feedback_toNat, Nat.shiftLeft_eq]
    ring
  · unfold Noise.count
    split <;> rfl

/-! ### The contribution -/

/-- The multiply takes the level as the host wrote it: a tick clears only the flag above it. -/
theorem Noise.contribution_eq_written (N : Noise) :
    N.contribution = q6 (9 * N.tickSum) (N.nvol.setWidth 7) := by
  rw [Noise.contribution_eq, Noise.tick_nvol, Noise.resetFlag_nvol, ← level_eq_setWidth,
    level_clearRst, level_eq_setWidth]

theorem Noise.contribution_bounds (N : Noise) : -32 ≤ N.contribution ∧ N.contribution ≤ 40 := by
  have hsum := N.tickSum_le
  obtain ⟨hlo, hhi⟩ := q6_between (9 * N.tickSum) (N.nvol.setWidth 7)
  rw [Noise.contribution_eq_written]
  omega

/-- Settles O30: the sum is at most 8, so the first operand of the multiply is at most 72. -/
theorem noiseContributionOfSum : Obligations.NoiseContributionOfSum :=
  ⟨fun N => ⟨N.tickSum_le, N.contribution_eq_written, N.contribution_bounds⟩, fun _ => ⟨rfl, rfl⟩⟩

end Sys2Proof.Machine
end

section
/-! PROOF. The periods of the LFSR (42_noise.md R166). Fifteen shifts are the sum (xor) of the tap's
number of shifts and of none; doubling every count keeps such an equation, so the counts 2^k of the
bit-1 tap follow a recurrence of four terms, which returns at k = 15. -/

namespace Sys2Proof.Machine

open Function (IsPeriodicPt minimalPeriod)

/-! ### Periods -/

/-- A period that no prime factor shortens is minimal. -/
theorem minimalPeriod_eq_of_div_prime {α : Type*} {f : α → α} {x : α} {n : Nat} (hn : n ≠ 0)
    (hper : IsPeriodicPt f n x)
    (hdiv : ∀ p ∈ n.primeFactorsList, ¬ IsPeriodicPt f (n / p) x) : minimalPeriod f x = n := by
  obtain ⟨a, ha⟩ := hper.minimalPeriod_dvd
  by_contra hne
  have ha1 : a ≠ 1 := fun h => hne (by rw [ha, h, mul_one])
  obtain ⟨p, hp, b, rfl⟩ := Nat.exists_prime_and_dvd ha1
  have hfactor : n = p * (minimalPeriod f x * b) := ha.trans (Nat.mul_left_comm _ _ _)
  refine hdiv p ((Nat.mem_primeFactorsList hn).mpr ⟨hp, _, hfactor⟩) ?_
  rw [Function.isPeriodicPt_iff_minimalPeriod_dvd, Nat.div_eq_of_eq_mul_right hp.pos hfactor]
  exact Nat.dvd_mul_right _ _

/-- Below the minimal period, no number of steps returns. -/
theorem iterate_ne_of_lt_minimalPeriod {α : Type*} {f : α → α} {x : α} {m n : Nat}
    (h : minimalPeriod f x = m) (hpos : 0 < n) (hlt : n < m) : f^[n] x ≠ x :=
  Function.not_isPeriodicPt_of_pos_of_lt_minimalPeriod hpos.ne' (h ▸ hlt)

theorem xor_xor_xor_cancel {w : Nat} (a b c : BitVec w) : (a ^^^ b) ^^^ (b ^^^ c) = a ^^^ c := by
  rw [BitVec.xor_assoc, ← BitVec.xor_assoc b, BitVec.xor_self, BitVec.zero_xor]

/-- An equation between counts of steps, the sum (xor) of two, holds of the doubled counts: the
mixed terms cancel. -/
theorem iterate_double_eq_xor {w : Nat} {f : BitVec w → BitVec w} {m a b : Nat}
    (h : ∀ l, f^[m] l = f^[a] l ^^^ f^[b] l) (l : BitVec w) :
    f^[2 * m] l = f^[2 * a] l ^^^ f^[2 * b] l := by
  have hcomm (i j : Nat) : f^[i] (f^[j] l) = f^[j] (f^[i] l) :=
    Function.Commute.iterate_iterate_self f i j l
  rw [two_mul, two_mul, two_mul, Function.iterate_add_apply, h (f^[m] l), hcomm a m, hcomm b m,
    h (f^[a] l), h (f^[b] l), hcomm b a, Function.iterate_add_apply, Function.iterate_add_apply,
    xor_xor_xor_cancel]

/-! ### Many shifts -/

/-- `n` shifts move bit `j + n` down to bit `j`. -/
theorem getLsbD_iterate_lfsrShift (periodic : Bool) (l : BitVec 15) {j n : Nat} (h : j + n < 15) :
    ((lfsrShift periodic)^[n] l).getLsbD j = l.getLsbD (j + n) := by
  induction n generalizing j with
  | zero => rfl
  | succ n ih =>
    rw [Function.iterate_succ_apply', getLsbD_lfsrShift _ _ (by omega), if_neg (by omega),
      ih (by omega), Nat.add_right_comm, Nat.add_assoc]

/-- The bits the register puts out: each is the sum (xor) of the one 15 shifts before it and the one
the tap reads with that. -/
theorem getLsbD_zero_iterate_fifteen (periodic : Bool) (l : BitVec 15) :
    ((lfsrShift periodic)^[15] l).getLsbD 0 =
      (((lfsrShift periodic)^[if periodic then 6 else 1] l).getLsbD 0 ^^ l.getLsbD 0) := by
  have htap : 0 + (if periodic then 6 else 1) < 15 := by cases periodic <;> decide
  rw [Function.iterate_succ_apply, getLsbD_iterate_lfsrShift _ _ (by decide),
    getLsbD_iterate_lfsrShift _ _ htap, getLsbD_lfsrShift _ _ (by decide), if_pos rfl, Nat.zero_add,
    Bool.xor_comm]

/-- Fifteen shifts replace the whole register, each bit by the recurrence. -/
theorem lfsrShift_iterate_fifteen (periodic : Bool) (l : BitVec 15) :
    (lfsrShift periodic)^[15] l =
      (lfsrShift periodic)^[if periodic then 6 else 1] l ^^^ (lfsrShift periodic)^[0] l := by
  refine BitVec.eq_of_getLsbD_eq fun j hj => ?_
  have hlow (x : BitVec 15) : x.getLsbD j = ((lfsrShift periodic)^[j] x).getLsbD 0 := by
    rw [getLsbD_iterate_lfsrShift _ _ (by omega), Nat.zero_add]
  have hcomm (n : Nat) : (lfsrShift periodic)^[j] ((lfsrShift periodic)^[n] l) =
      (lfsrShift periodic)^[n] ((lfsrShift periodic)^[j] l) :=
    Function.Commute.iterate_iterate_self _ j n l
  rw [BitVec.getLsbD_xor, hlow, hlow, hlow, hcomm, hcomm, hcomm, getLsbD_zero_iterate_fifteen]
  rfl

/-- Doubling the counts of `lfsrShift_iterate_fifteen` `k` times. -/
theorem lfsrShift_iterate_two_pow_mul_fifteen (periodic : Bool) (k : Nat) (l : BitVec 15) :
    (lfsrShift periodic)^[2 ^ k * 15] l =
      (lfsrShift periodic)^[2 ^ k * if periodic then 6 else 1] l ^^^
        (lfsrShift periodic)^[2 ^ k * 0] l := by
  induction k generalizing l with
  | zero => simpa only [Nat.pow_zero, Nat.one_mul] using lfsrShift_iterate_fifteen periodic l
  | succ k ih => simpa only [Nat.pow_succ', Nat.mul_assoc] using iterate_double_eq_xor ih l

theorem iterate_lfsrShift_ne_zero (periodic : Bool) {l : BitVec 15} (hl : l ≠ 0) (n : Nat) :
    (lfsrShift periodic)^[n] l ≠ 0 := by
  induction n with
  | zero => exact hl
  | succ n ih =>
    rw [Function.iterate_succ_apply']
    exact lfsrShift_ne_zero periodic ih

/-! ### The bit-1 tap -/

/-- `2 ^ k` shifts with the bit-1 tap. -/
def doubledShift (k : Nat) (l : BitVec 15) : BitVec 15 := (lfsrShift false)^[2 ^ k] l

theorem doubledShift_add_four (k : Nat) (l : BitVec 15) :
    doubledShift (k + 4) l = doubledShift (k + 1) l ^^^ doubledShift k l := by
  have h := lfsrShift_iterate_two_pow_mul_fifteen false k (doubledShift k l)
  have hadd (a b : Nat) (hab : 2 ^ k * a + 2 ^ k = b) :
      (lfsrShift false)^[2 ^ k * a] (doubledShift k l) = (lfsrShift false)^[b] l := by
    rw [doubledShift, ← Function.iterate_add_apply, hab]
  rwa [if_neg Bool.false_ne_true, hadd 15 (2 ^ (k + 4)) (by ring),
    hadd 1 (2 ^ (k + 1)) (by ring), hadd 0 (2 ^ k) (by ring)] at h

theorem doubledShift_add_eight (k : Nat) (l : BitVec 15) :
    doubledShift (k + 8) l = doubledShift (k + 2) l ^^^ doubledShift k l := by
  rw [doubledShift_add_four (k + 4), doubledShift_add_four (k + 1), doubledShift_add_four k,
    xor_xor_xor_cancel]

/-- The recurrence of the doubled shifts returns at 15. -/
theorem doubledShift_fifteen (l : BitVec 15) : doubledShift 15 l = doubledShift 0 l := by
  rw [doubledShift_add_eight 7, doubledShift_add_eight 1, doubledShift_add_four 3, BitVec.xor_comm,
    xor_xor_xor_cancel, doubledShift_add_four 0, BitVec.xor_comm, ← BitVec.xor_assoc,
    BitVec.xor_self, BitVec.zero_xor]

/-- 3 shifts to 1, and 2^15 shifts do what one does. -/
theorem isPeriodicPt_lfsrShift_bit_one : IsPeriodicPt (lfsrShift false) 32767 1 := by
  have hpred : lfsrShift false 3 = 1 := by decide
  have h := doubledShift_fifteen 3
  rwa [doubledShift, doubledShift, show 2 ^ 15 = 32767 + 1 by rfl, Function.iterate_succ_apply,
    show 2 ^ 0 = 1 by rfl, Function.iterate_one, hpred] at h

theorem iterate_two_pow_add (k n : Nat) (l : BitVec 15) :
    (lfsrShift false)^[2 ^ k + n] l = doubledShift k ((lfsrShift false)^[n] l) :=
  Function.iterate_add_apply _ _ _ _

/-- 32767 is 7 * 31 * 151; the three quotients are sums of at most five powers of 2. -/
theorem minimalPeriod_lfsrShift_bit_one : minimalPeriod (lfsrShift false) 1 = 32767 := by
  refine minimalPeriod_eq_of_div_prime (by decide) isPeriodicPt_lfsrShift_bit_one ?_
  simp only [Nat.primeFactorsList_ofNat, List.forall_mem_cons, List.not_mem_nil, false_imp_iff,
    implies_true, and_true, IsPeriodicPt, Function.IsFixedPt]
  rw [show 32767 / 7 = 2 ^ 12 + (2 ^ 9 + (2 ^ 6 + (2 ^ 3 + 1))) by rfl,
    show 32767 / 31 = 2 ^ 10 + (2 ^ 5 + 1) by rfl,
    show 32767 / 151 = 2 ^ 7 + (2 ^ 6 + (2 ^ 4 + (2 ^ 3 + 1))) by rfl]
  simp only [iterate_two_pow_add, doubledShift_add_eight, doubledShift_add_four]
  exact ⟨by decide, by decide, by decide⟩

/-- The values the LFSR can hold in a reachable state (R165). -/
def nonZeroLfsrs : Finset (BitVec 15) := Finset.univ.erase 0

theorem mem_nonZeroLfsrs {l : BitVec 15} : l ∈ nonZeroLfsrs ↔ l ≠ 0 := by
  simp [nonZeroLfsrs]

theorem card_nonZeroLfsrs : nonZeroLfsrs.card = 32767 := by
  rw [nonZeroLfsrs, Finset.card_erase_of_mem (Finset.mem_univ _), Finset.card_univ,
    ← FinEnum.card_eq_fintypeCard, FinEnum.card_bitVec]
  rfl

/-- The orbit of 1 has as many values as there are non-zero ones. -/
theorem exists_iterate_lfsrShift_eq {l : BitVec 15} (hl : l ≠ 0) :
    ∃ n, n < 32767 ∧ (lfsrShift false)^[n] 1 = l := by
  have hmaps : Set.MapsTo ((lfsrShift false)^[·] 1) (Finset.range 32767) nonZeroLfsrs :=
    fun n _ => mem_nonZeroLfsrs.mpr (iterate_lfsrShift_ne_zero false (by decide) n)
  have hinj : Set.InjOn ((lfsrShift false)^[·] 1) (Finset.range 32767) := by
    rw [Finset.coe_range, ← minimalPeriod_lfsrShift_bit_one]
    exact Function.iterate_injOn_Iio_minimalPeriod
  have hcard : nonZeroLfsrs.card ≤ (Finset.range 32767).card := by
    rw [card_nonZeroLfsrs, Finset.card_range]
  obtain ⟨n, hn, heq⟩ :=
    Finset.surjOn_of_injOn_of_card_le _ hmaps hinj hcard (mem_nonZeroLfsrs.mpr hl)
  exact ⟨n, Finset.mem_range.mp hn, heq⟩

/-! ### The bit-6 tap -/

theorem isPeriodicPt_lfsrShift_bit_six : IsPeriodicPt (lfsrShift true) 93 1 := by
  rw [IsPeriodicPt, Function.IsFixedPt, show 93 = 2 ^ 2 * 15 + (2 ^ 1 * 15 + 3) by rfl,
    Function.iterate_add_apply, Function.iterate_add_apply, lfsrShift_iterate_two_pow_mul_fifteen,
    lfsrShift_iterate_two_pow_mul_fifteen]
  decide

/-- 93 is 3 * 31. -/
theorem minimalPeriod_lfsrShift_bit_six : minimalPeriod (lfsrShift true) 1 = 93 := by
  refine minimalPeriod_eq_of_div_prime (by decide) isPeriodicPt_lfsrShift_bit_six ?_
  simp only [Nat.primeFactorsList_ofNat, List.forall_mem_cons, List.not_mem_nil, false_imp_iff,
    implies_true, and_true]
  exact ⟨by decide, by decide⟩

/-- Settles O31: the two periods are minimal, and the bit-1 tap's is the number of non-zero
values. -/
theorem lfsrSequenceLengths : Obligations.LfsrSequenceLengths :=
  ⟨isPeriodicPt_lfsrShift_bit_one,
    fun _ => iterate_ne_of_lt_minimalPeriod minimalPeriod_lfsrShift_bit_one,
    fun _ => exists_iterate_lfsrShift_eq, isPeriodicPt_lfsrShift_bit_six,
    fun _ => iterate_ne_of_lt_minimalPeriod minimalPeriod_lfsrShift_bit_six⟩

end Sys2Proof.Machine
end

section
/-! PROOF. Exact results in binary64 (00_scope.md R10): a result that is an integer below 2^53 over
a power of two is a finite value, so rounding leaves it. The combined mix (43_mixer_generation.md
R194) is such a result at each step. -/

namespace Sys2Proof.Machine

/-! ### Dyadic fractions -/

/-- Every integer below 2^53 in magnitude, over a power of two up to 2^1074, is a finite value. -/
theorem exists_valueOf_eq_div_two_pow {n : Int} {k : Nat} (hn : |n| < 2 ^ 53) (hk : k ≤ 1074) :
    ∃ x, isFinite x = true ∧ valueOf x = n / 2 ^ k := by
  have hm : n.natAbs < 2 ^ 53 := by
    rw [Int.abs_eq_natAbs] at hn
    omega
  obtain ⟨e, f, -, hmag⟩ :=
    roundMag_exact (n < 0) (j := 1074 - k) one_pos hm (by omega)
  refine ⟨.finite (n < 0) e f, rfl, ?_⟩
  have hunits : (2 : ℚ) ^ (1074 - k) * 2 ^ k = 2 ^ 1074 := by rw [← pow_add, Nat.sub_add_cancel hk]
  rw [valueOf_finite, hmag, Nat.mul_comm, ← mul_signedUnits, signedUnits_natAbs, Int.cast_mul,
    Int.cast_natCast, Nat.cast_pow, Nat.cast_ofNat, ← hunits]
  exact mul_div_mul_left _ _ (pow_ne_zero _ two_ne_zero)

theorem two_pow_le_overflowBound : (2 : ℚ) ^ 53 ≤ overflowBound := by
  have hsplit : (2 : ℚ) ^ 1024 = 2 ^ 970 * 2 ^ 54 := by rw [← pow_add]
  have hone : (1 : ℚ) ≤ 2 ^ 970 := one_le_pow₀ one_le_two
  rw [overflowBound, hsplit]
  generalize (2 : ℚ) ^ 970 = a at hone
  linarith

/-- A value that is finite and below the overflow bound is not moved by rounding. -/
theorem RoundsTo.eq_of_valueOf {q : ℚ} {x y : F64} (h : RoundsTo q x) (hy : isFinite y = true)
    (hval : valueOf y = q) (hq : |q| < overflowBound) : isFinite x = true ∧ valueOf x = q := by
  obtain ⟨hnearest, -⟩ := h
  obtain ⟨hx, hbest⟩ := hnearest hq
  obtain ⟨hdist, -⟩ := hbest y hy
  rw [hval, sub_self, abs_zero, abs_nonpos_iff, sub_eq_zero] at hdist
  exact ⟨hx, hdist.symm⟩

/-- EXACTNESS of an operation whose exact result is a dyadic fraction of 53 bits. -/
theorem RoundsTo.exact {q : ℚ} {x : F64} (h : RoundsTo q x) {n : Int} {k : Nat} (hn : |n| < 2 ^ 53)
    (hk : k ≤ 1074) (hq : q = n / 2 ^ k) : isFinite x = true ∧ valueOf x = q := by
  obtain ⟨y, hy, hval⟩ := exists_valueOf_eq_div_two_pow hn hk
  refine h.eq_of_valueOf hy (hval.trans hq.symm) ?_
  calc |q| = |(n : ℚ)| / 2 ^ k := by rw [hq, abs_div, abs_of_pos (by positivity : (0 : ℚ) < 2 ^ k)]
    _ ≤ |(n : ℚ)| := div_le_self (abs_nonneg _) (one_le_pow₀ one_le_two)
    _ < 2 ^ 53 := by exact_mod_cast hn
    _ ≤ overflowBound := two_pow_le_overflowBound

/-! ### The combined mix -/

theorem halfF_eq_fdiv : halfF = fdiv (toF 1) (toF 2) := by decide +kernel

theorem halfF_exact : isFinite halfF = true ∧ valueOf halfF = 1 / 2 := by
  obtain ⟨honeFin, hone⟩ := integersConvertExactly 1 (by decide)
  obtain ⟨htwoFin, htwo⟩ := integersConvertExactly 2 (by decide)
  have hround := fdiv_roundsTo honeFin htwoFin (by rw [htwo]; norm_num)
  rw [hone, htwo, ← halfF_eq_fdiv] at hround
  exact hround.exact (n := 1) (k := 1) (by decide) (by decide) (by norm_num)

/-- Half of a sum of buses is a multiple of 1/2, which needs no rounding. -/
theorem fmul_toF_halfF {n : Int} (hn : |n| < 2 ^ 53) :
    isFinite (fmul (toF n) halfF) = true ∧ valueOf (fmul (toF n) halfF) = n / 2 := by
  obtain ⟨hfin, hval⟩ := integersConvertExactly n hn
  obtain ⟨hhalfFin, hhalf⟩ := halfF_exact
  have hround := fmul_roundsTo hfin hhalfFin
  rw [hval, hhalf, mul_one_div] at hround
  exact hround.exact hn (k := 1) (by decide) (by rw [pow_one])

/-- Settles O36: the halving and the sum have multiples of 1/2 as their exact results. -/
theorem combinedMixIsExact : Obligations.CombinedMixIsExact := by
  intro f hsum hboosted
  rw [abs_lt] at hsum hboosted
  obtain ⟨hhalfFin, hhalf⟩ := fmul_toF_halfF (n := f.center + f.right + f.left)
    (by rw [abs_lt]; omega)
  obtain ⟨hfin, hval⟩ := integersConvertExactly f.boosted (by rw [abs_lt]; omega)
  have hround := fadd_roundsTo hhalfFin hfin
  rw [hhalf, hval] at hround
  refine ⟨by rw [combined, halfF_eq_fdiv], ?_⟩
  refine hround.exact (n := f.center + f.right + f.left + 2 * f.boosted) (k := 1)
    (by rw [abs_lt]; omega) (by decide) ?_
  push_cast
  ring

end Sys2Proof.Machine
end

section
/-! PROOF. The tick commands (43_mixer_generation.md R190): the modes differ in what they do to the
filter stage and the result port only. -/

namespace Sys2Proof.Machine

/-- A tick that leaves the filter stage alone writes the synthesis state as `coreTick` does. -/
theorem coreTick_emit_synthesis (s : State) (r : Result) :
    ((coreTick s).1.emit r).voices = (coreTick s).1.voices ∧
      ((coreTick s).1.emit r).noise = s.noise.tick ∧
      ((coreTick s).1.emit r).sampleNumber = s.sampleNumber + 1 ∧
      ((coreTick s).1.emit r).fault = s.fault ∧ ((coreTick s).1.emit r).pending = s.pending :=
  ⟨State.emit_voices _ r, (State.emit_noise _ r).trans (coreTick_noise s),
    (State.emit_sampleNumber _ r).trans (coreTick_sampleNumber s),
    (State.emit_fault _ r).trans (coreTick_fault s),
    (State.emit_pending _ r).trans (coreTick_pending s)⟩

/-- A tick command completes with what one tick leaves, whatever its mode. -/
theorem exists_exec_tick_fields {i : Instr} (hi : tickCommand i = true) (s : State) :
    ∃ t, exec i s = .next t ∧ t.voices = (coreTick s).1.voices ∧ t.noise = s.noise.tick ∧
      t.sampleNumber = s.sampleNumber + 1 ∧ t.fault = s.fault ∧ t.pending = s.pending := by
  obtain ⟨hmono, hstereo, hhphone⟩ := filteredTicks_synthesis kDac kPan s
  cases i with
  | frame | sample => exact ⟨_, rfl, coreTick_emit_synthesis s _⟩
  | mono => exact ⟨_, rfl, hmono⟩
  | stereo => exact ⟨_, rfl, hstereo⟩
  | hphone => exact ⟨_, rfl, hhphone⟩
  | sink ch =>
    rw [tickCommand, Bool.or_eq_true, beq_iff_eq, beq_iff_eq] at hi
    obtain rfl | rfl := hi
    · exact ⟨_, exec_sink_one s, hmono⟩
    · exact ⟨_, exec_sink_two s, hstereo⟩
  | wrate _ _ | wwave _ _ | wvol _ _ | wnper _ | wnvol _ | wnwave _ | reset => cases hi

/-- Settles O19: the voices of one tick are the voices' steps. -/
theorem tickCommandsRunOneTick : Obligations.TickCommandsRunOneTick := by
  intro i s hi
  obtain ⟨t, ht, hvoices, hrest⟩ := exists_exec_tick_fields hi s
  refine ⟨t, ht, fun v => ?_, hrest⟩
  rw [← coreTick_voice, State.voice, State.voice, hvoices]

end Sys2Proof.Machine
end

section
/-! PROOF. The bounds of the buses and of the mixes (43_mixer_generation.md R193, R195). Twice a mix
is a sum of buses with weights 0, 1 or 2. A voice stands on one bus only, so it counts once, with the
weight of its bus; that is why the mixes are as narrow as Boosted, though the buses are four. -/

namespace Sys2Proof.Machine

/-! ### Weighted sums of buses -/

/-- The sum of the buses of `f`, each times the weight that `w` holds for it. -/
def Frame.weighted (w f : Frame) : Int :=
  w.center * f.center + w.right * f.right + w.left * f.left + w.boosted * f.boosted

theorem Frame.weighted_addTo (w f : Frame) (p : Pan) (c : Int) :
    w.weighted (f.addTo p c) = w.weighted f + w.bus p * c := by
  cases p <;> simp only [Frame.weighted, Frame.addTo, Frame.bus] <;> ring

theorem Frame.weighted_silent (w : Frame) : w.weighted Frame.silent = 0 := by
  simp [Frame.weighted, Frame.silent]

theorem Frame.weighted_foldl_addTo {α : Type} (w : Frame) (pan : α → Pan) (c : α → Int)
    (vs : List α) (f : Frame) :
    w.weighted (vs.foldl (fun f v => f.addTo (pan v) (c v)) f) =
      w.weighted f + (vs.map fun v => w.bus (pan v) * c v).sum := by
  induction vs generalizing f with
  | nil => exact (add_zero _).symm
  | cons v vs ih =>
    rw [List.foldl_cons, ih, Frame.weighted_addTo, List.map_cons, List.sum_cons, add_assoc]

/-- Each voice enters a weighted sum once, with the weight of its bus. -/
theorem coreTick_weighted (w : Frame) (s : State) :
    w.weighted (coreTick s).2 =
      (∑ v, w.bus (panOf ((coreTick s).1.voice v).wave) * ((coreTick s).1.voice v).contribution) +
        w.boosted * s.noise.contribution := by
  rw [coreTick_frame, Frame.weighted_addTo, Frame.weighted_foldl_addTo, Frame.weighted_silent,
    zero_add, sum_map_voiceOrder]
  simp only [coreTick_voice, Frame.bus]

/-- Seven voices of at most the weight `k`, and the noise with the weight of Boosted. -/
theorem coreTick_weighted_bounds {w : Frame} {k : Int}
    (hw : ∀ p, 0 ≤ w.bus p ∧ w.bus p ≤ k) (s : State) :
    -(224 * k + 32 * w.boosted) ≤ w.weighted (coreTick s).2 ∧
      w.weighted (coreTick s).2 ≤ 217 * k + 40 * w.boosted := by
  have hvoice (v : Fin Config.numVoices) :
      -32 * k ≤
          w.bus (panOf ((coreTick s).1.voice v).wave) * ((coreTick s).1.voice v).contribution ∧
        w.bus (panOf ((coreTick s).1.voice v).wave) * ((coreTick s).1.voice v).contribution ≤
          31 * k := by
    obtain ⟨hpos, hle⟩ := hw (panOf ((coreTick s).1.voice v).wave)
    obtain ⟨hlo, hhi⟩ := ((coreTick s).1.voice v).contribution_bounds
    constructor <;> nlinarith only [hpos, hle, hlo, hhi]
  have hlower := Finset.card_nsmul_le_sum Finset.univ _ _ fun v _ => (hvoice v).1
  have hupper := Finset.sum_le_card_nsmul Finset.univ _ _ fun v _ => (hvoice v).2
  rw [Finset.card_univ, Fintype.card_fin, nsmul_eq_mul, Nat.cast_ofNat] at hlower hupper
  obtain ⟨hboosted, -⟩ := hw .boosted
  obtain ⟨hlo, hhi⟩ := s.noise.contribution_bounds
  rw [coreTick_weighted]
  rw [Frame.bus] at hboosted
  constructor <;> nlinarith only [hlower, hupper, hboosted, hlo, hhi]

/-! ### The bounds of a tick's frame -/

/-- The bounds of R193 on the buses, and on twice the combined mix and twice each channel before its
half of Center is rounded. -/
structure Frame.InRange (f : Frame) : Prop where
  center : -224 ≤ f.center ∧ f.center ≤ 217
  right : -224 ≤ f.right ∧ f.right ≤ 217
  left : -224 ≤ f.left ∧ f.left ≤ 217
  boosted : -256 ≤ f.boosted ∧ f.boosted ≤ 257
  combinedMix : -512 ≤ f.center + f.right + f.left + 2 * f.boosted ∧
    f.center + f.right + f.left + 2 * f.boosted ≤ 514
  leftMix : -512 ≤ 2 * f.left + 2 * f.boosted + f.center ∧
    2 * f.left + 2 * f.boosted + f.center ≤ 514
  rightMix : -512 ≤ 2 * f.right + 2 * f.boosted + f.center ∧
    2 * f.right + 2 * f.boosted + f.center ≤ 514

theorem Frame.forall_bus {w : Frame} {P : Int → Prop}
    (h : P w.center ∧ P w.right ∧ P w.left ∧ P w.boosted) (p : Pan) : P (w.bus p) := by
  obtain ⟨hcenter, hright, hleft, hboosted⟩ := h
  cases p with
  | center => exact hcenter
  | right => exact hright
  | left => exact hleft
  | boosted => exact hboosted

/-- The bounds of the weighted sum with weights (center, right, left, boosted). -/
theorem coreTick_linear_bounds (s : State) (c r l b k : Int)
    (h : (0 ≤ c ∧ c ≤ k) ∧ (0 ≤ r ∧ r ≤ k) ∧ (0 ≤ l ∧ l ≤ k) ∧ (0 ≤ b ∧ b ≤ k)) :
    -(224 * k + 32 * b) ≤ c * (coreTick s).2.center + r * (coreTick s).2.right +
        l * (coreTick s).2.left + b * (coreTick s).2.boosted ∧
      c * (coreTick s).2.center + r * (coreTick s).2.right + l * (coreTick s).2.left +
        b * (coreTick s).2.boosted ≤ 217 * k + 40 * b :=
  coreTick_weighted_bounds (w := ⟨c, r, l, b⟩)
    (Frame.forall_bus (P := fun x => 0 ≤ x ∧ x ≤ k) h) s

theorem coreTick_inRange (s : State) : (coreTick s).2.InRange where
  center := by have := coreTick_linear_bounds s 1 0 0 0 1 (by decide); omega
  right := by have := coreTick_linear_bounds s 0 1 0 0 1 (by decide); omega
  left := by have := coreTick_linear_bounds s 0 0 1 0 1 (by decide); omega
  boosted := by have := coreTick_linear_bounds s 0 0 0 1 1 (by decide); omega
  combinedMix := by have := coreTick_linear_bounds s 1 1 1 2 2 (by decide); omega
  leftMix := by have := coreTick_linear_bounds s 1 0 2 2 2 (by decide); omega
  rightMix := by have := coreTick_linear_bounds s 1 2 0 2 2 (by decide); omega

/-! ### The authentic mix -/

theorem leftRaw_eq (f : Frame) : leftRaw f = f.left + f.boosted + f.center / 2 := by
  refine congrArg (f.left + f.boosted + ·) ?_
  cases f.center with
  | ofNat n => exact congrArg Int.ofNat (Nat.shiftRight_eq_div_pow n 1)
  | negSucc n => exact congrArg Int.negSucc (Nat.shiftRight_eq_div_pow n 1)

theorem rightRaw_eq (f : Frame) : rightRaw f = f.right + f.boosted + f.center / 2 :=
  leftRaw_eq { f with left := f.right }

theorem Frame.InRange.leftRaw_bounds {f : Frame} (h : f.InRange) :
    -256 ≤ leftRaw f ∧ leftRaw f ≤ 257 := by
  have := h.leftMix
  rw [leftRaw_eq]
  omega

theorem Frame.InRange.rightRaw_bounds {f : Frame} (h : f.InRange) :
    -256 ≤ rightRaw f ∧ rightRaw f ≤ 257 := by
  have := h.rightMix
  rw [rightRaw_eq]
  omega

/-- Settles O37: the shift is a floor division, and twice a channel is in -512..514. -/
theorem authenticMixHalvesCenterDown : Obligations.AuthenticMixHalvesCenterDown := by
  refine ⟨fun f => ?_, fun s => ?_⟩
  · rw [leftRaw_eq, rightRaw_eq]
    omega
  · exact ⟨(coreTick_inRange s).leftRaw_bounds, (coreTick_inRange s).rightRaw_bounds⟩

/-! ### The combined mix -/

/-- The combined mix of a frame in range is exact (R194). -/
theorem Frame.InRange.combined_exact {f : Frame} (h : f.InRange) :
    isFinite (combined f) = true ∧
      valueOf (combined f) = ((f.center + f.right + f.left : Int) : ℚ) / 2 + (f.boosted : ℚ) := by
  obtain ⟨hcenter, hright, hleft, hboosted, -, -, -⟩ := h
  exact (combinedMixIsExact f (by rw [abs_lt]; omega) (by rw [abs_lt]; omega)).2

theorem Frame.InRange.combined_bounds {f : Frame} (h : f.InRange) :
    -256 ≤ valueOf (combined f) ∧ valueOf (combined f) ≤ 257 := by
  obtain ⟨-, hval⟩ := h.combined_exact
  obtain ⟨hlo, hhi⟩ := h.combinedMix
  qify at hlo hhi
  rw [hval]
  push_cast
  constructor <;> linarith

/-- Every bus and every integer mix of a frame in range converts exactly (R10). -/
theorem Frame.InRange.toF_exact {f : Frame} (h : f.InRange) :
    ∀ n ∈ [f.center, f.right, f.left, f.boosted, leftRaw f, rightRaw f],
      isFinite (toF n) = true ∧ valueOf (toF n) = n := by
  intro n hn
  have hrange : -256 ≤ n ∧ n ≤ 257 := by
    have hleftRaw := h.leftRaw_bounds
    have hrightRaw := h.rightRaw_bounds
    obtain ⟨hcenter, hright, hleft, hboosted, -, -, -⟩ := h
    simp only [List.mem_cons, List.not_mem_nil, or_false] at hn
    omega
  exact integersConvertExactly n (by rw [abs_lt]; omega)

/-! ### The bounds of Boosted are reached -/

/-- Every voice on Boosted at full level with the waveform register `wave`, the noise at full level
with an LFSR that does not shift within the tick. -/
def fullBoosted (wave : BitVec 8) (lfsr : BitVec 15) : State :=
  { State.reset with
    voices := Vector.replicate Config.numVoices { Voice.initial with wave := wave, vol := 64 }
    noise := { Noise.initial with nper := 255, nvol := 64, lfsr := lfsr } }

/-- Settles O35: the bounds are those of the weighted sums, and two states with every voice on
Boosted reach them, without and with INVA. -/
theorem busesAndMixesAreBounded : Obligations.BusesAndMixesAreBounded := by
  refine ⟨fun s => ?_, ⟨fullBoosted 0xC0 2, _, exec_frame _, by decide⟩,
    ⟨fullBoosted 0xC8 1, _, exec_frame _, by decide⟩⟩
  have h := coreTick_inRange s
  exact ⟨frameTick s, (coreTick s).2, exec_frame s, State.emit_result _ _, h.center, h.right,
    h.left, h.boosted, h.combined_bounds, h.leftRaw_bounds, h.rightRaw_bounds, h.toF_exact⟩

end Sys2Proof.Machine
end

section
/-! PROOF. FRAME and SAMPLE (43_mixer_generation.md R191, R192): one tick, and its frame or its
combined mix on the result port. -/

namespace Sys2Proof.Machine

theorem coreTick_emit_effect (s : State) (r : Result) :
    SameSynthesis (coreTick s).1 ((coreTick s).1.emit r) ∧
      ((coreTick s).1.emit r).filt = s.filt ∧ ((coreTick s).1.emit r).fault = s.fault ∧
      ((coreTick s).1.emit r).pending = s.pending := by
  obtain ⟨-, -, -, hkept⟩ := coreTick_emit_synthesis s r
  exact ⟨⟨rfl, rfl, rfl⟩, (State.emit_filt _ r).trans (coreTick_filt s), hkept⟩

/-- Settles O33: FRAME puts the frame of one tick on the port; the rule's two examples are runs from
the reset state. -/
theorem frameReturnsTickFrame : Obligations.FrameReturnsTickFrame := by
  refine ⟨fun s => ?_, ⟨_, exec_frame _, by decide⟩, ⟨_, rfl, by decide⟩⟩
  obtain ⟨hlegal, hillegal⟩ := step_present_plain (op := 8) (i := .frame) (fun _ _ => rfl) s
  exact ⟨hlegal, ⟨_, exec_frame s, State.emit_result _ _, coreTick_emit_effect s _⟩, hillegal⟩

/-- Settles O34: the mix is of the frame that FRAME returns, which is in the range where it is
exact. -/
theorem sampleReturnsCombinedMix : Obligations.SampleReturnsCombinedMix := by
  intro s
  obtain ⟨hlegal, hillegal⟩ := step_present_plain (op := 9) (i := .sample) (fun _ _ => rfl) s
  obtain ⟨hfin, hval⟩ := (coreTick_inRange s).combined_exact
  exact ⟨hlegal, ⟨_, _, _, _, rfl, exec_frame s, State.emit_result _ _, State.emit_result _ _, rfl,
    hfin, hval, coreTick_emit_effect s _⟩, hillegal⟩

end Sys2Proof.Machine
end

section
/-! PROOF. The silent state (43_mixer_generation.md R196): the levels stay 0 under every tick, and a
contribution of level 0 is 0 whatever the accumulator and the LFSR do. -/

namespace Sys2Proof.Machine

/-! ### Silent units -/

/-- A voice with no waveform flag, no level and no pending reset. -/
def Voice.Silent (V : Voice) : Prop := V.wave = 0 ∧ V.vol = 0

theorem Voice.Silent.tick {V : Voice} (h : V.Silent) (sn : Nat) : (V.tick sn).Silent := by
  obtain ⟨hwave, hvol⟩ := h
  refine ⟨?_, by rw [Voice.tick_vol, hvol]; rfl⟩
  obtain hkept | ⟨htogc, -⟩ := V.tick_wave_cases sn
  · exact hkept.trans hwave
  · rw [hwave] at htogc
    exact absurd htogc (by decide)

theorem Voice.Silent.contribution {V : Voice} (h : V.Silent) : V.contribution = 0 := by
  obtain ⟨-, hvol⟩ := h
  rw [Voice.contribution, hvol]
  exact q6_zero _

/-- Noise level 0; a pending reset of the LFSR may stand above it. -/
def Noise.Silent (N : Noise) : Prop := level N.nvol = 0

theorem Noise.Silent.tick {N : Noise} (h : N.Silent) : N.tick.Silent := by
  rw [Noise.Silent, Noise.tick_nvol, Noise.resetFlag_nvol, level_clearRst]
  exact h

theorem Noise.Silent.contribution {N : Noise} (h : N.Silent) : N.contribution = 0 := by
  rw [Noise.contribution_eq_written, ← level_eq_setWidth, h, q6_zero]

/-! ### Silent states -/

/-- Every unit is silent. -/
def State.Silent (s : State) : Prop := (∀ v, (s.voice v).Silent) ∧ s.noise.Silent

theorem State.Silent.frameTick {s : State} (h : s.Silent) : (frameTick s).Silent := by
  obtain ⟨hvoice, hnoise⟩ := h
  refine ⟨fun v => ?_, ?_⟩
  · rw [frameTick_voice, coreTick_voice]
    exact (hvoice v).tick _
  · rw [frameTick_noise]
    exact hnoise.tick

theorem State.Silent.iterate_frameTick {s : State} (h : s.Silent) (n : Nat) :
    (Machine.frameTick^[n] s).Silent := by
  induction n with
  | zero => exact h
  | succ n ih =>
    rw [Function.iterate_succ_apply']
    exact ih.frameTick

theorem State.Silent.coreTick_frame {s : State} (h : s.Silent) :
    (coreTick s).2 = Frame.silent := by
  obtain ⟨hvoice, hnoise⟩ := h
  refine Frame.ext_bus fun p => ?_
  have hzero (v : Fin Config.numVoices) : ((coreTick s).1.voice v).contribution = 0 := by
    rw [coreTick_voice]
    exact ((hvoice v).tick _).contribution
  rw [coreTick_bus, Frame.bus_silent, hnoise.contribution]
  simp [hzero]

/-- Settles O38: silence is kept by every FRAME; with no reset pending each accumulator advances. -/
theorem zeroStateIsSilent : Obligations.ZeroStateIsSilent := by
  intro s n hvoice hnvol
  have hlevel : s.noise.Silent := BitVec.eq_of_toNat_eq ((level_toNat _).trans hnvol)
  have h : s.Silent := ⟨hvoice, hlevel⟩
  have hn := h.iterate_frameTick n
  have ⟨hvoices, _⟩ := hn
  refine ⟨_, _, runInstrs_replicate exec_frame n s, exec_frame _, ?_, fun v => ?_,
    frameTick_noise _⟩
  · exact congrArg Result.frame hn.coreTick_frame
  · obtain ⟨-, hvol⟩ := hvoices v
    rw [frameTick_voice, coreTick_voice]
    exact Voice.tick_acc_of_not_rst _ (by rw [hvol]; rfl)

end Sys2Proof.Machine
end

section
/-! PROOF. Binary64 data by their values (00_scope.md R10): a finite datum other than -0.0 is the
only one of its value, rounding keeps an interval whose ends are finite values, and a sum is -0.0
only if both operands are. -/

namespace Sys2Proof.Machine

/-! ### A magnitude determines its datum -/

theorem magUnits_lt (e : Fin 2047) (f : BitVec 52) : magUnits e f < 2 ^ 52 * 2 ^ e.val := by
  have hf := f.isLt
  unfold magUnits
  split
  next he => rwa [he, pow_zero, mul_one]
  next he =>
    calc (2 ^ 52 + f.toNat) * 2 ^ (e.val - 1)
        < 2 ^ 52 * 2 * 2 ^ (e.val - 1) := Nat.mul_lt_mul_of_pos_right (by omega) (Nat.two_pow_pos _)
      _ = 2 ^ 52 * 2 ^ e.val := by rw [mul_assoc, mul_pow_sub_one he]

theorem magUnits_lt_of_expo_lt {e e' : Fin 2047} (f f' : BitVec 52) (h : e < e') :
    magUnits e f < magUnits e' f' := by
  have hlt : e.val < e'.val := h
  calc magUnits e f < 2 ^ 52 * 2 ^ e.val := magUnits_lt e f
    _ ≤ (2 ^ 52 + f'.toNat) * 2 ^ (e'.val - 1) :=
        Nat.mul_le_mul (Nat.le_add_right _ _) (Nat.pow_le_pow_right two_pos (by omega))
    _ = magUnits e' f' := by rw [magUnits, if_neg (by omega)]

theorem magUnits_inj {e e' : Fin 2047} {f f' : BitVec 52} (h : magUnits e f = magUnits e' f') :
    e = e' ∧ f = f' := by
  rcases lt_trichotomy e e' with hlt | rfl | hlt
  · exact absurd h (magUnits_lt_of_expo_lt f f' hlt).ne
  · refine ⟨rfl, BitVec.eq_of_toNat_eq ?_⟩
    unfold magUnits at h
    split at h
    · exact h
    · exact Nat.add_left_cancel (Nat.eq_of_mul_eq_mul_right (Nat.two_pow_pos _) h)
  · exact absurd h (magUnits_lt_of_expo_lt f' f hlt).ne'

theorem eq_negZeroF_of_magUnits {e : Fin 2047} {f : BitVec 52} (h : magUnits e f = 0) :
    F64.finite true e f = negZeroF := by
  obtain ⟨rfl, rfl⟩ := magUnits_inj (e' := 0) (f' := 0) h
  rfl

theorem sign_of_magUnits_eq_zero {neg : Bool} {e : Fin 2047} {f : BitVec 52}
    (hne : F64.finite neg e f ≠ negZeroF) (h : magUnits e f = 0) : neg = false :=
  Bool.eq_false_of_not_eq_true fun hneg => hne (hneg ▸ eq_negZeroF_of_magUnits h)

theorem sign_eq_of_signedUnits_eq {a b : Bool} {m : Nat} (h : signedUnits a m = signedUnits b m)
    (hm : 0 < m) : a = b := by
  rw [Bool.eq_iff_iff, ← signedUnits_neg_iff hm, h, signedUnits_neg_iff hm]

/-- The value of a finite datum other than -0.0 determines it. -/
theorem eq_of_valueOf_eq {x y : F64} (hx : isFinite x = true) (hy : isFinite y = true)
    (hxne : x ≠ negZeroF) (hyne : y ≠ negZeroF) (h : valueOf x = valueOf y) : x = y := by
  obtain ⟨a, e, f, rfl⟩ := eq_finite_of_isFinite hx
  obtain ⟨b, e', f', rfl⟩ := eq_finite_of_isFinite hy
  rw [valueOf_finite, valueOf_finite, div_left_inj' (pow_ne_zero _ two_ne_zero), Int.cast_inj] at h
  have hmag := congrArg abs h
  rw [abs_signedUnits, abs_signedUnits, Nat.cast_inj] at hmag
  obtain ⟨rfl, rfl⟩ := magUnits_inj hmag
  rcases Nat.eq_zero_or_pos (magUnits e f) with hzero | hpos
  · rw [sign_of_magUnits_eq_zero hxne hzero, sign_of_magUnits_eq_zero hyne hzero]
  · rw [sign_eq_of_signedUnits_eq h hpos]

theorem valueOf_zeroF : valueOf zeroF = 0 := by
  rw [valueOf, show unitsOf zeroF = 0 by decide, Int.cast_zero, zero_div]

theorem valueOf_negZeroF : valueOf negZeroF = 0 := by
  rw [valueOf, show unitsOf negZeroF = 0 by decide, Int.cast_zero, zero_div]

theorem ne_negZeroF_of_valueOf_ne_zero {x : F64} (h : valueOf x ≠ 0) : x ≠ negZeroF :=
  fun heq => h (heq ▸ valueOf_negZeroF)

/-! ### Rounding and intervals -/

theorem magUnits_le (e : Fin 2047) (f : BitVec 52) :
    magUnits e f ≤ (2 ^ 53 - 1) * 2 ^ (e.val - 1) := by
  have hf := f.isLt
  unfold magUnits
  split
  next he => exact le_trans (by omega) (Nat.le_mul_of_pos_right _ (Nat.two_pow_pos _))
  next he => exact Nat.mul_le_mul_right _ (by omega)

theorem abs_valueOf_lt_overflowBound {x : F64} (hx : isFinite x = true) :
    |valueOf x| < overflowBound := by
  obtain ⟨neg, e, f, rfl⟩ := eq_finite_of_isFinite hx
  have hbound := overflowBound_le_iff one_pos neg (magUnits e f)
  rw [Nat.cast_one, one_mul] at hbound
  rw [valueOf_finite, ← not_le, hbound, not_le]
  have hpow : 2 ^ (e.val - 1) ≤ 2 ^ 2044 * 2 := by
    rw [← pow_succ]
    gcongr
    · exact one_le_two
    · omega
  have hpos : 0 < 2 ^ 2044 := by positivity
  have hmag := magUnits_le e f
  generalize 2 ^ 2044 = u at *
  omega

/-- Rounding keeps an interval whose ends are finite values. -/
theorem RoundsTo.mem_Icc {q : ℚ} {x l h : F64} (hr : RoundsTo q x) (hl : isFinite l = true)
    (hh : isFinite h = true) (hq : q ∈ Set.Icc (valueOf l) (valueOf h)) :
    isFinite x = true ∧ valueOf x ∈ Set.Icc (valueOf l) (valueOf h) := by
  obtain ⟨hlq, hqh⟩ := hq
  obtain ⟨hnearest, -⟩ := hr
  obtain ⟨hlmin, -⟩ := abs_lt.mp (abs_valueOf_lt_overflowBound hl)
  obtain ⟨-, hhmax⟩ := abs_lt.mp (abs_valueOf_lt_overflowBound hh)
  obtain ⟨hx, hbest⟩ := hnearest (abs_lt.mpr ⟨by linarith, by linarith⟩)
  obtain ⟨hnearl, -⟩ := hbest l hl
  obtain ⟨hnearh, -⟩ := hbest h hh
  rw [abs_of_nonneg (a := q - valueOf l) (by linarith)] at hnearl
  rw [abs_of_nonpos (a := q - valueOf h) (by linarith)] at hnearh
  obtain ⟨hlo, -⟩ := abs_le.mp hnearh
  obtain ⟨-, hhi⟩ := abs_le.mp hnearl
  exact ⟨hx, by linarith, by linarith⟩

/-- The rationals from m / 2^k to n / 2^k. -/
def dyadicIcc (m n : Int) (k : Nat) : Set ℚ := Set.Icc (m / 2 ^ k) (n / 2 ^ k)

theorem mem_dyadicIcc {m n : Int} {k : Nat} {q : ℚ} :
    q ∈ dyadicIcc m n k ↔ (m : ℚ) / 2 ^ k ≤ q ∧ q ≤ n / 2 ^ k := Set.mem_Icc

/-- Rounding keeps an interval whose ends are dyadic fractions of 53 bits. -/
theorem RoundsTo.mem_dyadicIcc {q : ℚ} {x : F64} (hr : RoundsTo q x) {m n : Int} {k : Nat}
    (hm : |m| < 2 ^ 53) (hn : |n| < 2 ^ 53) (hk : k ≤ 1074) (hq : q ∈ dyadicIcc m n k) :
    isFinite x = true ∧ valueOf x ∈ dyadicIcc m n k := by
  obtain ⟨l, hl, hlval⟩ := exists_valueOf_eq_div_two_pow hm hk
  obtain ⟨h, hh, hhval⟩ := exists_valueOf_eq_div_two_pow hn hk
  rw [dyadicIcc, ← hlval, ← hhval] at hq ⊢
  exact hr.mem_Icc hl hh hq

/-- A finite value is not moved by rounding. -/
theorem RoundsTo.of_valueOf {x y : F64} (hr : RoundsTo (valueOf y) x) (hy : isFinite y = true) :
    isFinite x = true ∧ valueOf x = valueOf y :=
  hr.eq_of_valueOf hy rfl (abs_valueOf_lt_overflowBound hy)

/-! ### The sign of a zero sum -/

/-- A magnitude of at least one unit does not round to a zero. -/
theorem roundMag_ne_negZeroF (neg : Bool) {n : Nat} (hn : 0 < n) : roundMag neg n 1 ≠ negZeroF := by
  obtain ⟨-, heq⟩ | ⟨-, e, f, heq, hmag, -⟩ := roundMag_cases neg n 1
  · rw [heq]
    exact nofun
  · have hpos : 0 < n / (1 * 2 ^ ulpShift n 1) := by
      by_cases hk : ulpShift n 1 = 0
      · simpa [hk] using hn
      · exact lt_of_lt_of_le (by norm_num) (le_div_ulpShift hk)
    have hround := lt_of_lt_of_le hpos (div_le_roundEven n (1 * 2 ^ ulpShift n 1))
    rw [heq]
    rintro ⟨⟩
    exact (Nat.mul_pos hround (Nat.two_pow_pos _)).ne hmag

/-- A sum is -0.0 only if both of its operands are (44_filter.md R219). -/
theorem fadd_ne_negZeroF {x y : F64} (hx : isFinite x = true) (hy : isFinite y = true)
    (hne : x ≠ negZeroF ∨ y ≠ negZeroF) : fadd x y ≠ negZeroF := by
  obtain ⟨a, e, f, rfl⟩ := eq_finite_of_isFinite hx
  obtain ⟨b, e', f', rfl⟩ := eq_finite_of_isFinite hy
  rw [fadd, roundUnits]
  split
  next hzero =>
    intro hneg
    obtain ⟨hsign, -⟩ := F64.finite.inj hneg
    obtain ⟨rfl, rfl⟩ := Bool.and_eq_true_iff.mp hsign
    simp only [unitsOf_finite, signedUnits, if_true] at hzero
    exact hne.elim (absurd (eq_negZeroF_of_magUnits (by omega)))
      (absurd (eq_negZeroF_of_magUnits (by omega)))
  next hsum => exact roundMag_ne_negZeroF _ (Int.natAbs_pos.mpr hsum)

end Sys2Proof.Machine
end

section
/-! PROOF. The arithmetic of the filter stage (44_filter.md R210 to R212, R219): the scaling is
exact, a low-pass step keeps the range of its history, and the pan coefficient stays in the unit
interval. -/

namespace Sys2Proof.Machine

/-! ### The scaling -/

theorem ofRatio_256 : ofRatio 256 1 = toF 256 := rfl

/-- The scaling of a dyadic fraction of 53 bits is exact. -/
theorem scaled_exact {x : F64} (hx : isFinite x = true) {n : Int} {k : Nat}
    (hval : valueOf x = n / 2 ^ k) (hn : |n| < 2 ^ 53) (hk : k + 8 ≤ 1074) :
    isFinite (scaled x) = true ∧ valueOf (scaled x) = valueOf x / 256 := by
  obtain ⟨hfin, h256⟩ := integersConvertExactly 256 (by decide)
  have hround := fdiv_roundsTo hx hfin (by rw [h256]; norm_num)
  rw [h256, ← ofRatio_256] at hround
  refine hround.exact hn hk ?_
  rw [hval, pow_add, div_div]
  norm_num

theorem scaled_zeroF : scaled zeroF = zeroF := by decide +kernel

theorem toF_zero : toF 0 = zeroF := roundMag_zero false 1

/-- An integer converts to +0.0 or to a value that is not zero. -/
theorem toF_ne_negZeroF {n : Int} (hn : |n| < 2 ^ 53) : toF n ≠ negZeroF := by
  by_cases h0 : n = 0
  · rw [h0, toF_zero]
    decide
  · obtain ⟨-, hval⟩ := integersConvertExactly n hn
    refine ne_negZeroF_of_valueOf_ne_zero ?_
    rw [hval]
    exact_mod_cast h0

/-- Settles O43: an integer is a dyadic fraction, and the quotient one with 8 more places. -/
theorem scalingIsExact : Obligations.ScalingIsExact := by
  intro n hn
  have hn' : |n| < 2 ^ 53 := hn.trans (by norm_num)
  obtain ⟨hfin, hval⟩ := integersConvertExactly n hn'
  have hscaled :=
    scaled_exact hfin (n := n) (k := 0) (by rw [hval, pow_zero, div_one]) hn' (by decide)
  rwa [hval] at hscaled

/-! ### Samples -/

/-- What a mode feeds its filters: a finite datum other than -0.0 whose value is a mix of R193 over
256, so a multiple of 1/512 in the range of R219. -/
structure SampleOk (x : F64) : Prop where
  finite : isFinite x = true
  ne_negZeroF : x ≠ negZeroF
  value : ∃ n : Int, (-512 ≤ n ∧ n ≤ 514) ∧ valueOf x = n / 2 ^ 9

/-- A mix of R193, before the scaling. -/
theorem sampleOk_scaled {x : F64} (hx : isFinite x = true) (hxz : x ≠ negZeroF) {n : Int}
    (hn : -512 ≤ n ∧ n ≤ 514) (hval : valueOf x = n / 2) : SampleOk (scaled x) := by
  obtain ⟨hfin, hscaled⟩ :=
    scaled_exact hx (n := n) (k := 1) (by rw [hval, pow_one]) (by rw [abs_lt]; omega) (by decide)
  refine ⟨hfin, ?_, n, hn, ?_⟩
  · by_cases h0 : valueOf x = 0
    · have hzero : x = zeroF :=
        eq_of_valueOf_eq hx rfl hxz (by decide) (h0.trans valueOf_zeroF.symm)
      rw [hzero, scaled_zeroF]
      decide
    · refine ne_negZeroF_of_valueOf_ne_zero ?_
      rw [hscaled]
      exact div_ne_zero h0 (by norm_num)
  · rw [hscaled, hval]
    ring

theorem sampleOk_scaledInt {n : Int} (hn : -256 ≤ n ∧ n ≤ 257) : SampleOk (scaledInt n) := by
  have hn' : |n| < 2 ^ 53 := by
    rw [abs_lt]
    omega
  obtain ⟨hfin, hval⟩ := integersConvertExactly n hn'
  refine sampleOk_scaled hfin (toF_ne_negZeroF hn') (n := 2 * n) (by omega) ?_
  rw [hval]
  push_cast
  ring

/-- The combined mix is a sum with the conversion of Boosted, so it is not -0.0. -/
theorem Frame.InRange.sampleOk_combined {f : Frame} (h : f.InRange) :
    SampleOk (scaled (combined f)) := by
  obtain ⟨hfin, hval⟩ := h.combined_exact
  have hsum : |f.center + f.right + f.left| < 2 ^ 53 := by
    have ⟨_, _, _, _, _, _, _⟩ := h
    rw [abs_lt]
    omega
  have hboosted : |f.boosted| < 2 ^ 53 := by
    have := h.boosted
    rw [abs_lt]
    omega
  refine sampleOk_scaled hfin ?_ h.combinedMix ?_
  · exact fadd_ne_negZeroF (fmul_toF_halfF hsum).1 (integersConvertExactly _ hboosted).1
      (.inr (toF_ne_negZeroF hboosted))
  · rw [hval]
    push_cast
    ring

theorem Frame.InRange.sampleOk_leftRaw {f : Frame} (h : f.InRange) :
    SampleOk (scaledInt (leftRaw f)) := sampleOk_scaledInt h.leftRaw_bounds

theorem Frame.InRange.sampleOk_rightRaw {f : Frame} (h : f.InRange) :
    SampleOk (scaledInt (rightRaw f)) := sampleOk_scaledInt h.rightRaw_bounds

theorem Frame.InRange.sampleOk_left {f : Frame} (h : f.InRange) : SampleOk (scaledInt f.left) :=
  sampleOk_scaledInt (by have := h.left; omega)

theorem Frame.InRange.sampleOk_right {f : Frame} (h : f.InRange) : SampleOk (scaledInt f.right) :=
  sampleOk_scaledInt (by have := h.right; omega)

/-! ### The low-pass step -/

/-- A product with a factor in the unit interval stays in an interval around 0. -/
theorem mul_mem_dyadicIcc {m n : Int} {k : Nat} {p q : ℚ} (hp : p ∈ dyadicIcc m n k)
    (hm : m ≤ 0) (hn : 0 ≤ n) (hq : 0 ≤ q ∧ q ≤ 1) : p * q ∈ dyadicIcc m n k := by
  have hzero : (0 : ℚ) ∈ dyadicIcc m n k :=
    mem_dyadicIcc.mpr ⟨div_nonpos_of_nonpos_of_nonneg (by exact_mod_cast hm) (by positivity),
      by positivity⟩
  rw [mul_comm]
  exact (convex_Icc _ _).smul_mem_of_zero_mem hzero hp hq

/-- The range of R219 in units of the samples. -/
theorem historyOk_iff {x : F64} :
    HistoryOk x ↔ isFinite x = true ∧ x ≠ negZeroF ∧ valueOf x ∈ dyadicIcc (-512) 514 9 := by
  rw [HistoryOk, mem_dyadicIcc]
  norm_num

/-- The low-pass step keeps the range of its history. The differences between the sample and the two
ends of the range are finite values, so the rounded difference lies between them; the product lies
between it and 0; and the sum goes no further than the end. -/
theorem lp_historyOk {y x k : F64} (hy : HistoryOk y) (hx : SampleOk x) (hk : InUnit k) :
    HistoryOk (lp y x k) := by
  obtain ⟨hyFin, -, hyval⟩ := historyOk_iff.mp hy
  obtain ⟨hxFin, hxne, n, hn, hval⟩ := hx
  obtain ⟨hkFin, hkval⟩ := hk
  have hloAbs : |-512 - n| < 2 ^ 53 := by
    rw [abs_lt]
    omega
  have hhiAbs : |514 - n| < 2 ^ 53 := by
    rw [abs_lt]
    omega
  rw [mem_dyadicIcc] at hyval
  have hdiff : valueOf y - valueOf x ∈ dyadicIcc (-512 - n) (514 - n) 9 := by
    rw [mem_dyadicIcc, hval]
    push_cast at hyval ⊢
    constructor <;> linarith
  obtain ⟨hdFin, hd⟩ :=
    (fsub_roundsTo hyFin hxFin).mem_dyadicIcc hloAbs hhiAbs (by decide) hdiff
  obtain ⟨hmFin, hm⟩ :=
    (fmul_roundsTo hdFin hkFin).mem_dyadicIcc hloAbs hhiAbs (by decide)
      (mul_mem_dyadicIcc hd (by omega) (by omega) hkval)
  rw [mem_dyadicIcc] at hm
  have hsum : valueOf x + valueOf (fmul (fsub y x) k) ∈ dyadicIcc (-512) 514 9 := by
    rw [mem_dyadicIcc, hval]
    push_cast at hm ⊢
    constructor <;> linarith
  obtain ⟨hsFin, hs⟩ :=
    (fadd_roundsTo hxFin hmFin).mem_dyadicIcc (by decide) (by decide) (by decide) hsum
  exact historyOk_iff.mpr ⟨hsFin, fadd_ne_negZeroF hxFin hmFin (.inl hxne), hs⟩

/-- The sum of two histories is an output in range. -/
theorem outputOk_fadd {x y : F64} (hx : HistoryOk x) (hy : HistoryOk y) : OutputOk (fadd x y) := by
  obtain ⟨hxFin, hxne, hxlo, hxhi⟩ := hx
  obtain ⟨hyFin, -, hylo, hyhi⟩ := hy
  have hsum : valueOf x + valueOf y ∈ dyadicIcc (-256) 257 7 := by
    rw [mem_dyadicIcc]
    push_cast
    constructor <;> linarith
  obtain ⟨hfin, hs⟩ :=
    (fadd_roundsTo hxFin hyFin).mem_dyadicIcc (by decide) (by decide) (by decide) hsum
  rw [mem_dyadicIcc] at hs
  push_cast at hs
  exact ⟨hfin, fadd_ne_negZeroF hxFin hyFin (.inl hxne), by linarith, by linarith⟩

/-- Settles O44: the difference is 0, so is the product, and the sum has the value of the input. -/
theorem lowPassKeepsConstantInput : Obligations.LowPassKeepsConstantInput := by
  refine ⟨fun _ _ _ => rfl, fun x k hx hxne hk => ?_⟩
  have hround := fsub_roundsTo hx hx
  rw [sub_self, ← valueOf_zeroF] at hround
  obtain ⟨hdFin, hd⟩ := hround.of_valueOf rfl
  have hround := fmul_roundsTo hdFin hk
  rw [hd, valueOf_zeroF, zero_mul, ← valueOf_zeroF] at hround
  obtain ⟨hmFin, hm⟩ := hround.of_valueOf rfl
  have hround := fadd_roundsTo hx hmFin
  rw [hm, valueOf_zeroF, add_zero] at hround
  obtain ⟨hsFin, hs⟩ := hround.of_valueOf hx
  exact eq_of_valueOf_eq hsFin hx (fadd_ne_negZeroF hx hmFin (.inl hxne)) hxne hs

/-! ### The pan coefficient -/

theorem inUnit_iff {x : F64} : InUnit x ↔ isFinite x = true ∧ valueOf x ∈ dyadicIcc 0 1 0 := by
  simp [InUnit, mem_dyadicIcc]

theorem RoundsTo.inUnit {q : ℚ} {x : F64} (hr : RoundsTo q x) (hq : q ∈ dyadicIcc 0 1 0) :
    InUnit x :=
  inUnit_iff.mpr (hr.mem_dyadicIcc (by decide) (by decide) (by decide) hq)

theorem oneF_eq_toF : oneF = toF 1 := by decide +kernel

theorem inUnit_one_fsub {x : F64} (hx : InUnit x) : InUnit (fsub oneF x) := by
  obtain ⟨hfin, hlo, hhi⟩ := hx
  obtain ⟨honeFin, hone⟩ := integersConvertExactly 1 (by decide)
  rw [oneF_eq_toF]
  refine (fsub_roundsTo honeFin hfin).inUnit ?_
  rw [hone, mem_dyadicIcc]
  push_cast
  constructor <;> linarith

theorem inUnit_fmul {x y : F64} (hx : InUnit x) (hy : InUnit y) : InUnit (fmul x y) := by
  obtain ⟨hxFin, hx⟩ := inUnit_iff.mp hx
  obtain ⟨hyFin, hy⟩ := hy
  exact (fmul_roundsTo hxFin hyFin).inUnit (mul_mem_dyadicIcc hx le_rfl zero_le_one hy)

theorem InOpenUnit.inUnit {x : F64} (h : InOpenUnit x) : InUnit x := by
  obtain ⟨hfin, hlo, hhi⟩ := h
  exact ⟨hfin, hlo.le, hhi.le⟩

/-- Settles O45: complements and products of unit coefficients, rounded, are unit coefficients. -/
theorem panCoefficientInUnit : Obligations.PanCoefficientInUnit := fun _ _ hkd hep =>
  inUnit_one_fsub (inUnit_fmul (inUnit_one_fsub hkd.inUnit) (inUnit_one_fsub hep.inUnit))

end Sys2Proof.Machine
end

section
/-! PROOF. The range of the filter histories (44_filter.md R219): every part of a mode keeps it,
since the frame of every tick is in the range of R193. -/

namespace Sys2Proof.Machine

/-! ### The parts of a mode -/

theorem FilterState.Bounded.monoStep {f : FilterState} (hf : f.Bounded) {k : F64} (hk : InUnit k)
    {fr : Frame} (hfr : fr.InRange) : (f.monoStep k fr).Bounded := by
  obtain ⟨hmono, hrest⟩ := hf
  exact ⟨lp_historyOk hmono hfr.sampleOk_combined hk, hrest⟩

theorem FilterState.Bounded.stereoStep {f : FilterState} (hf : f.Bounded) {k : F64} (hk : InUnit k)
    {fr : Frame} (hfr : fr.InRange) : (f.stereoStep k fr).Bounded := by
  obtain ⟨hmono, hleft, hright, hrest⟩ := hf
  exact ⟨hmono, lp_historyOk hleft hfr.sampleOk_leftRaw hk,
    lp_historyOk hright hfr.sampleOk_rightRaw hk, hrest⟩

theorem FilterState.Bounded.hpLowPass {f : FilterState} (hf : f.Bounded) {k kp : F64}
    (hk : InUnit k) (hkp : InUnit kp) {fr : Frame} (hfr : fr.InRange) :
    (f.hpLowPass k kp fr).Bounded := by
  obtain ⟨hmono, hstL, hstR, hyL, hyR, hpL, hpR, hslots⟩ := hf
  exact ⟨hmono, hstL, hstR, lp_historyOk hyL hfr.sampleOk_leftRaw hk,
    lp_historyOk hyR hfr.sampleOk_rightRaw hk, lp_historyOk hpL hfr.sampleOk_right hkp,
    lp_historyOk hpR hfr.sampleOk_left hkp, hslots⟩

/-- The slots after a push: the pan history at the cursor, the old slot elsewhere. -/
theorem getElem_set_cursor (d : Vector F64 Config.delayLen) (c j : Fin Config.delayLen) (x : F64) :
    (d.set c x)[j] = if j = c then x else d[j] := by
  simp only [Fin.getElem_fin, Vector.getElem_set, Fin.ext_iff, eq_comm]

theorem FilterState.Bounded.hpPush {f : FilterState} (hf : f.Bounded) : f.hpPush.Bounded := by
  obtain ⟨hmono, hstL, hstR, hyL, hyR, hpL, hpR, hslots⟩ := hf
  refine ⟨hmono, hstL, hstR, hyL, hyR, hpL, hpR, fun j => ?_⟩
  rw [FilterState.hpPush_hpDL, FilterState.hpPush_hpDR, getElem_set_cursor, getElem_set_cursor]
  split
  · exact ⟨hpL, hpR⟩
  · exact hslots j

theorem FilterState.Bounded.hpOut {f : FilterState} (hf : f.Bounded) :
    ∃ l r, f.hpOut = .pair l r ∧ OutputOk l ∧ OutputOk r := by
  obtain ⟨-, -, -, hyL, hyR, -, -, hslots⟩ := hf
  obtain ⟨hdL, hdR⟩ := hslots f.hpCur
  exact ⟨_, _, rfl, outputOk_fadd hyL hdL, outputOk_fadd hyR hdR⟩

/-! ### The filtered ticks -/

theorem hphoneTick_result (k kp : F64) (s : State) :
    (hphoneTick k kp s).result = (s.filt.hpLowPass k kp (coreTick s).2).hpOut := by
  simp [hphoneTick]

/-- Settles O52: the frame of a tick is in range, and each part of a mode keeps the bounds. -/
theorem filterHistoriesStayBounded : Obligations.FilterHistoriesStayBounded := by
  intro k kp s hk hkp hs
  have hframe := coreTick_inRange s
  have hlow := hs.hpLowPass hk hkp hframe
  rw [monoTick_filt, stereoTick_filt, hphoneTick_filt, hphoneTick_result]
  exact ⟨hs.monoStep hk hframe, hs.stereoStep hk hframe, hlow.hpPush, hlow.hpOut⟩

end Sys2Proof.Machine
end

section
/-! PROOF. The commands of the filter stage (44_filter.md R213 to R216): the words that issue them
and what each writes and returns. -/

namespace Sys2Proof.Machine

/-! ### The filtered ticks -/

theorem exec_mono (s : State) : exec .mono s = .next (monoTick kDac s) := rfl

theorem exec_stereo (s : State) : exec .stereo s = .next (stereoTick kDac s) := rfl

theorem exec_hphone (s : State) : exec .hphone s = .next (hphoneTick kDac kPan s) := rfl

theorem monoTick_result (k : F64) (s : State) :
    (monoTick k s).result = .value (monoTick k s).filt.monoY := rfl

theorem stereoTick_result (k : F64) (s : State) :
    (stereoTick k s).result = .pair (stereoTick k s).filt.stYL (stereoTick k s).filt.stYR := rfl

theorem hphoneTick_hpCur (k kp : F64) (s : State) :
    (hphoneTick k kp s).filt.hpCur = nextCursor s.filt.hpCur := by
  rw [hphoneTick_filt, FilterState.hpPush_hpCur, FilterState.hpLowPass_hpCur]

theorem hphoneTick_hpDL (k kp : F64) (s : State) (j : Fin Config.delayLen) :
    (hphoneTick k kp s).filt.hpDL[j] =
      if j = s.filt.hpCur then (hphoneTick k kp s).filt.hpPL else s.filt.hpDL[j] := by
  rw [hphoneTick_filt, FilterState.hpPush_hpDL, getElem_set_cursor]
  rfl

theorem hphoneTick_hpDR (k kp : F64) (s : State) (j : Fin Config.delayLen) :
    (hphoneTick k kp s).filt.hpDR[j] =
      if j = s.filt.hpCur then (hphoneTick k kp s).filt.hpPR else s.filt.hpDR[j] := by
  rw [hphoneTick_filt, FilterState.hpPush_hpDR, getElem_set_cursor]
  rfl

/-- HPHONE returns its direct histories plus the slots at the cursor as they were (R215). -/
theorem hphoneTick_result_of_cursor {k kp : F64} {s : State} {c : Fin Config.delayLen}
    (hc : s.filt.hpCur = c) :
    (hphoneTick k kp s).result =
      .pair (fadd (hphoneTick k kp s).filt.hpYL s.filt.hpDL[c])
        (fadd (hphoneTick k kp s).filt.hpYR s.filt.hpDR[c]) := by
  subst hc
  rw [hphoneTick_result, hphoneTick_filt]
  rfl

/-! ### The commands -/

/-- Settles O46: the tick leaves `filt`, the mono filter writes one of its fields. -/
theorem monoFiltersCombinedMix : Obligations.MonoFiltersCombinedMix := by
  intro s
  obtain ⟨hlegal, hillegal⟩ := step_present_plain (op := 0xA) (i := .mono) (fun _ _ => rfl) s
  obtain ⟨⟨-, -, -, hkept⟩, -, -⟩ := filteredTicks_synthesis kDac kPan s
  refine ⟨hlegal, ⟨_, _, exec_mono s, rfl, monoTick_filt kDac s, ?_, ⟨rfl, rfl, rfl⟩, hkept⟩,
    hillegal⟩
  rw [monoTick_result, monoTick_filt]
  rfl

/-- Settles O47: the tick leaves `filt`, and each channel is filtered with its own history. -/
theorem stereoFiltersBothChannels : Obligations.StereoFiltersBothChannels := by
  intro s
  obtain ⟨hlegal, hillegal⟩ := step_present_plain (op := 0xB) (i := .stereo) (fun _ _ => rfl) s
  obtain ⟨-, ⟨-, -, -, hkept⟩, -⟩ := filteredTicks_synthesis kDac kPan s
  refine ⟨hlegal, ⟨_, _, _, exec_stereo s, rfl, rfl, stereoTick_filt kDac s, ?_, ⟨rfl, rfl, rfl⟩,
    hkept⟩, hillegal⟩
  rw [stereoTick_result, stereoTick_filt]
  rfl

/-- Settles O49: SINK 1 and SINK 2 run the same ticks as MONO and STEREO. -/
theorem sinkFollowsChannelCount : Obligations.SinkFollowsChannelCount := by
  intro s
  refine ⟨⟨_, exec_mono s, exec_sink_one s, monoTick_countsOne kDac s⟩,
    ⟨_, exec_stereo s, exec_sink_two s, stereoTick_countsOne kDac s⟩, fun ch => ?_⟩
  obtain ⟨hlegal, hillegal⟩ :=
    step_present_noIndexWrite (op := 0xD) (data := ch) (i := .sink ch) (fun _ => rfl) s
  exact ⟨hlegal, fun h1 h2 => exec_sink_contract h1 h2 s, hillegal⟩

/-- Settles O48: the low-pass part leaves the delay line, and the push writes the slots at the
cursor. -/
theorem hphoneAddsDelayedPan : Obligations.HphoneAddsDelayedPan := by
  intro s
  obtain ⟨hlegal, hillegal⟩ := step_present_plain (op := 0xC) (i := .hphone) (fun _ _ => rfl) s
  obtain ⟨-, -, ⟨-, -, -, hkept⟩⟩ := filteredTicks_synthesis kDac kPan s
  have hfilt := hphoneTick_filt kDac kPan s
  refine ⟨hlegal, ⟨_, exec_hphone s, congrArg (·.hpYL) hfilt, congrArg (·.hpYR) hfilt,
    congrArg (·.hpPL) hfilt, congrArg (·.hpPR) hfilt, hphoneTick_result_of_cursor rfl,
    (hphoneTick_hpDL _ _ _ _).trans (if_pos rfl), (hphoneTick_hpDR _ _ _ _).trans (if_pos rfl),
    fun j hj => ⟨(hphoneTick_hpDL _ _ _ _).trans (if_neg hj),
      (hphoneTick_hpDR _ _ _ _).trans (if_neg hj)⟩,
    congrArg (·.hpCur.val) hfilt, congrArg (·.monoY) hfilt, congrArg (·.stYL) hfilt,
    congrArg (·.stYR) hfilt, ⟨rfl, rfl, rfl⟩, hkept⟩, hillegal⟩

end Sys2Proof.Machine
end

section
/-! PROOF. The headphone delay line (44_filter.md R215): the cursor visits a slot once in 23 HPHONE
commands, and a slot is written only when the cursor is on it. -/

namespace Sys2Proof.Machine

/-! ### The cursor -/

theorem slotAfter_zero (c : Fin Config.delayLen) : slotAfter c 0 = c :=
  Fin.ext (Nat.mod_eq_of_lt c.isLt)

theorem nextCursor_slotAfter (c : Fin Config.delayLen) (n : Nat) :
    nextCursor (slotAfter c n) = slotAfter c (n + 1) :=
  Fin.ext (Nat.mod_add_mod _ _ _)

theorem slotAfter_nextCursor_22 (c : Fin Config.delayLen) : slotAfter (nextCursor c) 22 = c := by
  revert c
  decide

theorem slotAfter_ne {m n : Nat} (c : Fin Config.delayLen) (hmn : m < n) (hn : n < 23) :
    slotAfter c n ≠ slotAfter c m := by
  intro h
  have hval : (c.val + n) % 23 = (c.val + m) % 23 := congrArg Fin.val h
  omega

theorem iterate_hphoneTick_hpCur (k kp : F64) (n : Nat) (s : State) :
    ((hphoneTick k kp)^[n] s).filt.hpCur = slotAfter s.filt.hpCur n := by
  induction n with
  | zero => exact (slotAfter_zero _).symm
  | succ n ih =>
    rw [Function.iterate_succ_apply', hphoneTick_hpCur, ih, nextCursor_slotAfter]

/-! ### The slots -/

/-- A slot is kept until the cursor has reached it. -/
theorem iterate_hphoneTick_slot (k kp : F64) {m n : Nat} (hmn : m ≤ n) (hn : n < 23) (s : State) :
    ((hphoneTick k kp)^[m] s).filt.hpDL[slotAfter s.filt.hpCur n] =
        s.filt.hpDL[slotAfter s.filt.hpCur n] ∧
      ((hphoneTick k kp)^[m] s).filt.hpDR[slotAfter s.filt.hpCur n] =
        s.filt.hpDR[slotAfter s.filt.hpCur n] := by
  induction m with
  | zero => exact ⟨rfl, rfl⟩
  | succ m ih =>
    have hne := slotAfter_ne s.filt.hpCur hmn hn
    rw [← iterate_hphoneTick_hpCur k kp m s] at hne
    rw [Function.iterate_succ_apply', hphoneTick_hpDL, hphoneTick_hpDR, if_neg hne, if_neg hne]
    exact ih (by omega)

/-- The output of the tick after `n` ticks, within one turn of the cursor. -/
theorem hphoneTick_iterate_result (k kp : F64) {n : Nat} (hn : n < 23) (s : State) :
    (hphoneTick k kp ((hphoneTick k kp)^[n] s)).result =
      .pair (fadd (hphoneTick k kp ((hphoneTick k kp)^[n] s)).filt.hpYL
          s.filt.hpDL[slotAfter s.filt.hpCur n])
        (fadd (hphoneTick k kp ((hphoneTick k kp)^[n] s)).filt.hpYR
          s.filt.hpDR[slotAfter s.filt.hpCur n]) := by
  obtain ⟨hL, hR⟩ := iterate_hphoneTick_slot k kp le_rfl hn s
  rw [hphoneTick_result_of_cursor (iterate_hphoneTick_hpCur k kp n s), hL, hR]

/-- Settles O50: command n pushes its pan histories into the slot that the cursor comes back to 23
commands later, and no command in between writes. -/
theorem headphoneDelayIs23Commands : Obligations.HeadphoneDelayIs23Commands := by
  intro s n
  refine ⟨⟨_, _, runInstrs_replicate_succ exec_hphone n s,
    runInstrs_replicate_succ exec_hphone (n + 23) s, ?_⟩, fun hn =>
    ⟨_, runInstrs_replicate_succ exec_hphone n s, hphoneTick_iterate_result kDac kPan hn s⟩⟩
  have hturn : (hphoneTick kDac kPan)^[n + 23] s =
      (hphoneTick kDac kPan)^[22] (hphoneTick kDac kPan ((hphoneTick kDac kPan)^[n] s)) := by
    rw [← Function.iterate_succ_apply' (hphoneTick kDac kPan), ← Function.iterate_add_apply]
    congr 1
    omega
  rw [hturn]
  generalize (hphoneTick kDac kPan)^[n] s = u
  rw [hphoneTick_iterate_result kDac kPan (by decide), hphoneTick_hpDL, hphoneTick_hpDR,
    hphoneTick_hpCur, if_pos (slotAfter_nextCursor_22 _), if_pos (slotAfter_nextCursor_22 _)]

end Sys2Proof.Machine
end

section
/-! PROOF. The modes keep separate histories (44_filter.md R218). -/

namespace Sys2Proof.Machine

/-- Settles O51: only the filter commands write `filt`, and each mode's step writes and reads its
own fields; the frame it filters depends on the synthesis state only. -/
theorem modesKeepSeparateHistories : Obligations.ModesKeepSeparateHistories := by
  refine ⟨fun i s => ?writers, fun s s' hsyn hmono => ?mono, fun s s' hsyn hL hR => ?stereo,
    fun s s' hsyn hfilt => ?hphone, ?reset⟩
  case writers =>
    cases hi : filterCommand i
    · obtain ⟨t, ht, heffect⟩ := exists_exec_effect i s
      refine ⟨t, ht, ?_⟩
      rw [heffect.filt hi]
      simp
    · simp only [filterCommand, decide_eq_true_eq, List.mem_cons, List.not_mem_nil, or_false] at hi
      obtain rfl | rfl | rfl | rfl | rfl := hi
      · exact ⟨_, exec_mono s, by simp [monoTick_filt]⟩
      · exact ⟨_, exec_stereo s, by simp [stereoTick_filt]⟩
      · exact ⟨_, exec_hphone s, by simp [hphoneTick_filt]⟩
      · exact ⟨_, exec_sink_one s, by simp [monoTick_filt]⟩
      · exact ⟨_, exec_sink_two s, by simp [stereoTick_filt]⟩
  case mono =>
    have hy : (monoTick kDac s).filt.monoY = (monoTick kDac s').filt.monoY := by
      simp [monoTick_filt, hmono, hsyn.coreTick_snd]
    exact ⟨_, _, exec_mono s, exec_mono s', congrArg Result.value hy, hy⟩
  case stereo =>
    have hyL : (stereoTick kDac s).filt.stYL = (stereoTick kDac s').filt.stYL := by
      simp [stereoTick_filt, hL, hsyn.coreTick_snd]
    have hyR : (stereoTick kDac s).filt.stYR = (stereoTick kDac s').filt.stYR := by
      simp [stereoTick_filt, hR, hsyn.coreTick_snd]
    exact ⟨_, _, exec_stereo s, exec_stereo s', congrArg₂ Result.pair hyL hyR, hyL, hyR⟩
  case hphone =>
    refine ⟨_, _, exec_hphone s, exec_hphone s', ?_, ?_⟩
    · rw [hphoneTick_result, hphoneTick_result, hsyn.coreTick_snd, hfilt]
      rfl
    · rw [hphoneTick_filt, hphoneTick_filt, hsyn.coreTick_snd, hfilt]
      rfl
  case reset =>
    exact ⟨rfl, rfl, rfl, rfl, rfl, rfl, rfl, fun j =>
      ⟨Vector.getElem_replicate j.isLt, Vector.getElem_replicate j.isLt⟩⟩

end Sys2Proof.Machine
end

section
/-! PROOF. Faults (60_exceptions.md R240 to R242): a command that decodes either completes without a
fault or is SINK with another channel count than 1 and 2, and no step ends a run or clears `fault`. -/

namespace Sys2Proof.Machine

/-! ### Steps and runs -/

/-- Settles O5: there is no word to fetch. -/
theorem stepIdlesWithoutCommand : Obligations.StepIdlesWithoutCommand := by
  intro s hp
  rw [step, State.fetch_nil hp]

theorem CommandEffect.fault_of_fault {i : Instr} {s t : State} (h : CommandEffect i s t)
    (hs : s.fault = true) : t.fault = true := by
  obtain hkept | ⟨hset, _⟩ := h.fault
  · exact hkept.trans hs
  · exact hset

theorem exists_step_fault_of_fault (s : State) :
    ∃ t, step s = .next t ∧ (s.fault = true → t.fault = true) := by
  obtain hidle | ⟨w, rest, _, ⟨i, _, hexec⟩ | ⟨r, _, hraise⟩⟩ := step_cases s
  · exact ⟨s, hidle, id⟩
  · obtain ⟨t, ht, heffect⟩ := exists_exec_effect i { s with pending := rest }
    exact ⟨t, hexec.trans ht, heffect.fault_of_fault⟩
  · exact ⟨_, hraise, fun _ => State.raise_fault _ _⟩

/-- What every step keeps while answering a next state, a run of any length keeps. -/
theorem exists_core_run_of_step {P : State → Prop}
    (hstep : ∀ s, P s → ∃ t, step s = .next t ∧ P t) (n : Nat) {s : State} (hs : P s) :
    ∃ t, Host.Core.run Sys2Proof.core n s = .next t ∧ P t := by
  induction n generalizing s with
  | zero => exact ⟨s, rfl, hs⟩
  | succ n ih =>
    obtain ⟨u, hu, hPu⟩ := hstep s hs
    obtain ⟨t, ht, hPt⟩ := ih hPu
    exact ⟨t, (core_run_succ_of_next hu n).trans ht, hPt⟩

/-- Settles O57: a step answers a next state and keeps a set `fault`, and so does a run. -/
theorem coreNeverStopsFaultIsSticky : Obligations.CoreNeverStopsFaultIsSticky := by
  intro n s
  refine exists_core_run_of_step (P := fun u => s.fault = true → u.fault = true)
    (fun u hu => ?_) n id
  obtain ⟨t, ht, hsticky⟩ := exists_step_fault_of_fault u
  exact ⟨t, ht, hsticky ∘ hu⟩

/-! ### One command -/

theorem State.writeVoice_result (s : State) {v : BitVec 3} (hv : voiceInRange v = true)
    (f : Voice → Voice) : (s.writeVoice v f).result = .none := by
  have hlt : v.toNat < Config.numVoices := of_decide_eq_true hv
  rw [s.writeVoice_of_index (k := ⟨v.toNat, hlt⟩) f rfl, State.emit_result]

/-- A command that is legal, with a legal channel count if it is SINK, returns no fault. -/
theorem result_ne_fault_of_exec {i : Instr} (hwf : i.wellFormed = true)
    (hsink : ∀ ch, i = .sink ch → ch = 1 ∨ ch = 2) {s t : State} (ht : exec i s = .next t)
    (r : Fault) : t.result ≠ .fault r := by
  cases i with
  | wrate v _ | wwave v _ | wvol v _ =>
    cases ht
    rw [s.writeVoice_result hwf]
    exact nofun
  | wnper _ | wnvol _ | wnwave _ | reset | frame | sample | mono | stereo | hphone =>
    cases ht
    exact nofun
  | sink ch =>
    obtain rfl | rfl := hsink ch rfl
    · cases ht
      exact nofun
    · cases ht
      exact nofun

/-- A command sets `fault` only where it returns a fault (R240). -/
theorem CommandEffect.fault_eq {i : Instr} {s t : State} (h : CommandEffect i s t)
    (hresult : ∀ r, t.result ≠ .fault r) : t.fault = s.fault := by
  obtain hkept | ⟨_, r, hr⟩ := h.fault
  · exact hkept
  · exact absurd hr (hresult r)

/-- Settles O58: the decoder refuses the word, or it decodes to a well-formed command, for which the
channel count of SINK is the one check left (R242). -/
theorem faultWritesNothingElse : Obligations.FaultWritesNothingElse := by
  intro s w
  cases hd : decode w with
  | error r => exact .inl ⟨⟨r, rfl⟩, step_present_of_error hd s⟩
  | ok i =>
    have hexec := step_present_of_ok hd s
    by_cases hsink : ∀ ch, i = .sink ch → ch = 1 ∨ ch = 2
    · obtain ⟨hwf, _⟩ := encodeDecodeUpToIgnoredBits w i hd
      obtain ⟨t, ht, heffect⟩ := exists_exec_effect i s
      have hresult := result_ne_fault_of_exec hwf hsink ht
      exact .inr (.inr ⟨i, t, rfl, hsink, hexec.trans ht, ht, heffect.fault_eq hresult, hresult⟩)
    · push Not at hsink
      obtain ⟨ch, rfl, h1, h2⟩ := hsink
      exact .inr (.inl ⟨⟨ch, rfl, h1, h2⟩, hexec.trans (exec_sink_contract h1 h2 s)⟩)

end Sys2Proof.Machine
end

section
/-! PROOF. The construction state and RESET (70_reset_and_hazards.md R260, R261). -/

namespace Sys2Proof.Machine

/-- Settles O54: `State.reset` stores these constants, and its voices are copies of one. -/
theorem constructionState : Obligations.ConstructionState :=
  ⟨fun _ => Vector.getElem_replicate _, rfl, rfl, rfl, rfl⟩

/-- Settles O15: RESET stores the construction values of the synthesis state and, besides them, the
empty result alone. -/
theorem resetRoundTrip : Obligations.ResetRoundTrip := fun s =>
  ⟨s.resetSynth.emit .none, rfl, sameSynthesis_resetSynth s, rfl, rfl⟩

end Sys2Proof.Machine
end

section
/-! PROOF. The hazard of WNPER (70_reset_and_hazards.md R268): each write of the period zeroes the
counter, so a tick after it counts from 0 and reaches a wrap only if enough sub-steps run. -/

namespace Sys2Proof.Machine

/-! ### The sub-steps that run -/

/-- Sub-step 7 always runs, and the seven skip bits decide about the others. -/
theorem activeSubSteps_bounds (nwave : BitVec 8) :
    1 ≤ activeSubSteps nwave ∧ activeSubSteps nwave ≤ 8 := by
  have hfilter := List.length_filter_le (fun i => !nwave.getLsbD i) [0, 1, 2, 3, 4, 5, 6]
  simp only [List.length_cons, List.length_nil] at hfilter
  unfold activeSubSteps
  omega

/-- A tick that counts from 0, with no reset pending, shifts the LFSR once for each `nper` + 1
sub-steps that run (R161, R162). -/
theorem Noise.tick_lfsr_of_ncnt_zero {N : Noise} (hcnt : N.ncnt = 0)
    (hrst : N.nvol.getLsbD 7 = false) :
    N.tick.lfsr =
      (lfsrShift (N.nwave.getLsbD 7))^[activeSubSteps N.nwave / (N.nper.toNat + 1)] N.lfsr := by
  have hzero : N.ncnt.toNat = 0 := congrArg BitVec.toNat hcnt
  have hlfsr : lfsrAtTick N = N.lfsr := if_neg (Bool.eq_false_iff.mp hrst)
  have hcount := (Noise.iterate_count_resetFlag (hzero.trans_le N.nper.toNat.zero_le)
    (activeSubSteps N.nwave)).2
  rw [Noise.tick, Noise.subSteps_eq, Noise.resetFlag_nwave, hcount, hlfsr, hzero, Nat.zero_add]

/-! ### One round -/

/-- What WNPER `p` and a FRAME after it make of a state. -/
def periodRound (p : BitVec 8) (s : State) : State :=
  frameTick (s.writeNoise fun N => { N with nper := p, ncnt := 0 })

theorem runInstrs_periodRound (p : BitVec 8) (is : List Instr) (s : State) :
    runInstrs (.wnper p :: .frame :: is) s = runInstrs is (periodRound p s) := by
  rw [runInstrs_cons_of_next rfl, runInstrs_cons_of_next (exec_frame _), periodRound]

theorem periodRound_noise (p : BitVec 8) (s : State) :
    (periodRound p s).noise = Noise.tick { s.noise with nper := p, ncnt := 0 } := by
  rw [periodRound, frameTick_noise, State.writeNoise_eq]

theorem periodRound_nwave (p : BitVec 8) (s : State) :
    (periodRound p s).noise.nwave = s.noise.nwave := by
  rw [periodRound_noise, Noise.tick_nwave]

theorem periodRound_nvol_rst (p : BitVec 8) (s : State) :
    (periodRound p s).noise.nvol.getLsbD 7 = false := by
  rw [periodRound_noise, Noise.tick_nvol_rst]

theorem periodRound_lfsr (p : BitVec 8) {s : State} (hrst : s.noise.nvol.getLsbD 7 = false) :
    (periodRound p s).noise.lfsr =
      (lfsrShift (s.noise.nwave.getLsbD 7))^[activeSubSteps s.noise.nwave / (p.toNat + 1)]
        s.noise.lfsr := by
  rw [periodRound_noise]
  exact Noise.tick_lfsr_of_ncnt_zero rfl hrst

theorem periodRound_lfsr_of_le {p : BitVec 8} {s : State}
    (hrst : s.noise.nvol.getLsbD 7 = false) (hle : activeSubSteps s.noise.nwave ≤ p.toNat) :
    (periodRound p s).noise.lfsr = s.noise.lfsr := by
  rw [periodRound_lfsr p hrst, Nat.div_eq_of_lt (Nat.lt_succ_of_le hle),
    Function.iterate_zero_apply]

/-! ### Many rounds -/

theorem runInstrs_replicate_periodRound (p : BitVec 8) (n : Nat) (s : State) :
    runInstrs (List.replicate n [Instr.wnper p, Instr.frame]).flatten s =
      .next ((periodRound p)^[n] s) := by
  induction n generalizing s with
  | zero => rfl
  | succ n ih => exact (runInstrs_periodRound p _ s).trans (ih (periodRound p s))

/-- A round leaves no pending noise reset and the skip bits as they are, so the next one stops the
LFSR as well. -/
theorem iterate_periodRound_lfsr_of_le {p : BitVec 8} (n : Nat) {s : State}
    (hrst : s.noise.nvol.getLsbD 7 = false) (hle : activeSubSteps s.noise.nwave ≤ p.toNat) :
    ((periodRound p)^[n] s).noise.lfsr = s.noise.lfsr := by
  induction n generalizing s with
  | zero => rfl
  | succ n ih =>
    rw [Function.iterate_succ_apply,
      ih (periodRound_nvol_rst p s) (by rwa [periodRound_nwave]), periodRound_lfsr_of_le hrst hle]

/-- Settles O32: a round is one tick whose counter starts at 0, so with at most `p` sub-steps the
counter never wraps. -/
theorem periodRewriteStopsLfsr : Obligations.PeriodRewriteStopsLfsr := fun s p hrst =>
  ⟨activeSubSteps_bounds s.noise.nwave,
    fun hle n => ⟨_, runInstrs_replicate_periodRound p n s,
      iterate_periodRound_lfsr_of_le n hrst hle⟩,
    ⟨_, runInstrs_periodRound p [] s, periodRound_lfsr p hrst⟩⟩

end Sys2Proof.Machine
end
